-- ==== Sys2Proof/Word.lean ====
section
/-! DEFINITION. The word types of the Salsa20 block engine (00_scope R4: WORD is 32 bits, data memory is byte-addressed). -/

namespace Sys2Proof

/-- A 32-bit word: every state word, register and arithmetic operation (00_scope R4). -/
abbrev Word := BitVec 32

/-- A byte of data memory (20_memory R61) or of a keystream block (00_scope R14). -/
abbrev Byte := BitVec 8

/-- A block of sixteen words: the arrays `s` and `x` (10_state R21), a block's output words, KS0-KS15 (R35). -/
abbrev Words16 := Vector Word 16

end Sys2Proof
end

