-- ==== Sys2Proof/Config.lean ====
section
/-! DEFINITION. What a platform or an implementation fixes and what the spec leaves free. Every constant here has no
body: nothing in Lean can evaluate it or prove a value of it, so a theorem holds whatever it is. -/

namespace Sys2Proof

/-- The kind of a data-memory access that MemAdmit is asked about (00_scope R4: kind = R or kind = W). -/
inductive AccessKind where
  | read
  | write
  deriving DecidableEq, Repr

/-- MemAdmit(addr, kind), OPEN (00_scope R4, 20_memory R61): may the data-memory byte be read or written? Used where a
state's platform leaves it open (DESIGN CHOICE, log entry 3). -/
opaque Config.memAdmit : Nat → AccessKind → Bool

/-- REG_BASE, OPEN (00_scope R4; 93 U6): the address of the register window in the host's address space. No rule
depends on it. -/
opaque Config.regBase : Nat

/-- BLOCK_LATENCY, OPEN (00_scope R4, 70_reset R221): how long a command takes, counted in host steps, for the draw
with this number (DESIGN CHOICE, log entry 4). -/
opaque Config.blockLatency : Nat → Nat

/-- The counter after E_BUS, "any C' with 0 <= C' <= 2^64" (60_exceptions R194), for the draw with this number
(DESIGN CHOICE, log entry 6). -/
opaque Config.freeCounter : Nat → Fin (2 ^ 64 + 1)

/-- A destination byte after E_BUS (60_exceptions R194) or after a reset in flight (70_reset R212), for the draw with
this number and the byte's address (DESIGN CHOICE, log entry 6). -/
opaque Config.freeByte : Nat → Nat → Byte

end Sys2Proof
end

