-- ==== Sys2Proof/Syntax.lean ====
section
/-! DEFINITION. The commands of the engine (30_encoding R93), the names of the register window (10_state R37) and the
accesses a host makes (00_scope R13, 30_encoding R96). -/

namespace Sys2Proof

/-- The seven commands, one constructor per row of spec/opcode_table.json (30_encoding R93). A word that matches no row is
ILLEGAL (R94), no command: Decode rejects it by name. -/
inductive Instr where
  /-- 0x00, CMD-Z: no operation (41_commands R142). -/
  | nop
  /-- 0x01, CMD-Z: latch key and nonce, counter 0 (R143). -/
  | sessionInit
  /-- 0x02, CMD-Z: latch nonce, counter 0 (R144). -/
  | setNonce
  /-- 0x03, CMD-Z: keystream block at INDEX into KS0-KS15 (R145). -/
  | keystream
  /-- 0x04, CMD-N: XOR `n` whole blocks, counter + n (R146). -/
  | processBlocks (n : Nat)
  /-- 0x05, CMD-L: XOR the first `length` bytes of one block, counter + 1 (R147). -/
  | processBytes (length : Nat)
  /-- 0x06, CMD-Z: destroy the session, zero the secrets (R148). -/
  | sessionClear
  deriving DecidableEq, Repr

/-- The registers of the 256-byte window by name (10_state R37). -/
inductive Reg where
  | key (i : Fin 8)
  | nonce (j : Fin 2)
  | indexLo
  | indexHi
  | ctrLo
  | ctrHi
  | srcAddr
  | dstAddr
  | srcLen
  | dstLen
  | cmd
  | status
  | wrmask
  | ks (i : Fin 16)
  deriving DecidableEq, Repr

/-- One statement of a host program that is not a pseudo-instruction (30_encoding R96), as the host agent performs it:
one access, or one reset assertion, per step (00_scope R13). -/
inductive HostAct where
  /-- Read the register window: `width` bits at offset `off` (`rd`; R96 reads 32 bits). -/
  | rd (width off : Nat)
  /-- Write the register window: `width` bits at offset `off` (`wr` and `.cmd`; R96 writes 32 bits). -/
  | wr (width off : Nat) (v : Word)
  /-- `poll`: read STATUS again until BUSY = 0. -/
  | poll
  /-- Read `n` consecutive data-memory bytes from `a` in one access (20_memory R69: any width the platform gives). -/
  | memRead (a n : Nat)
  /-- Write the bytes `bs` to data memory from `a` in one access (`mw` makes one access per byte). -/
  | memWrite (a : Nat) (bs : List Byte)
  /-- `reset`: assert the reset input (70_reset R210). -/
  | reset
  /-- `check e`: read STATUS; the program asserts ERR = e and DONE = 1 (30_encoding R97). -/
  | check (e : Byte)
  deriving DecidableEq, Repr

/-- What the host got back, in order (30_encoding R96: "the value is shown in the listing"). -/
inductive Seen where
  | reg (off : Nat) (v : Word)
  | mem (a : Nat) (bs : List Byte)
  /-- Did the assertion of a `check e` hold? -/
  | checked (e : Byte) (ok : Bool)
  deriving DecidableEq, Repr

end Sys2Proof
end

