-- ==== Sys2Proof/Machine/State.lean ====
section
/-! DEFINITION. The machine's state: everything 10_state R20 lists, the data memory, the OPEN parameters a state carries
as data, and the model's own record of the host and of the free values drawn. -/

namespace Sys2Proof.Machine

/-- The error codes 0-9 of 60_exceptions R181, in that order; 10-255 are never produced. -/
inductive ErrorCode where
  | none
  | illegal
  | noSession
  | size
  | length
  | bufSize
  | range
  | overlap
  | ctrExhausted
  | bus
  deriving DecidableEq, Repr

/-- The engine's two arrays while a block is being computed: `s` the input state, `x` the working state
(10_state R21). -/
structure Arrays where
  s : Words16
  x : Words16
  deriving DecidableEq, Repr

/-- Data memory (20_memory R61) as address and byte pairs: addresses strictly rising, no entry equal to what an unlisted
address reads as. -/
abbrev Memory := List Host.Cell

/-- A range of data memory and the accesses the platform admits there. -/
structure Region where
  base : Nat
  size : Nat
  readable : Bool
  writable : Bool
  deriving DecidableEq, Repr

/-- The platform predicate MemAdmit (00_scope R4): left OPEN, or given as the list of regions that exist
(DESIGN CHOICE, log entry 3). -/
inductive Platform where
  | unstated
  | given (regions : List Region)
  deriving DecidableEq, Repr

/-- The state. Names in capitals are the spec's. -/
structure State where
  /-- SKEY, the session key (10_state R23). -/
  skey : Vector Word 8
  /-- SNONCE, the session nonce (R23). -/
  snonce : Vector Word 2
  /-- SESS (R24). -/
  sess : Bool
  /-- EXH, bit 64 of the counter (R25). -/
  exh : Bool
  /-- CTR, the low 64 bits of the counter (R25). -/
  ctr : BitVec 64
  /-- KEY0-KEY7, staging (R26). -/
  key : Vector Word 8
  /-- NONCE0-NONCE1, staging (R27). -/
  nonce : Vector Word 2
  /-- WRMASK bits 9:0 (R28). -/
  wrmask : BitVec 10
  /-- INDEX_LO (R29). -/
  indexLo : Word
  /-- INDEX_HI (R29). -/
  indexHi : Word
  /-- SRC_ADDR (R31). -/
  srcAddr : Word
  /-- DST_ADDR (R31). -/
  dstAddr : Word
  /-- SRC_LEN (R32). -/
  srcLen : Word
  /-- DST_LEN (R32). -/
  dstLen : Word
  /-- CMD (R33). -/
  cmd : Word
  /-- KS0-KS15 (R35). -/
  ks : Words16
  /-- BUSY (R34, R40). -/
  busy : Bool
  /-- STATUS.DONE (R34). -/
  done : Bool
  /-- STATUS.WERR (R34). -/
  werr : Bool
  /-- STATUS.FAULT (R34). -/
  fault : Bool
  /-- STATUS.ERR (R34). -/
  err : ErrorCode
  /-- PEND, the accepted command word (R40). -/
  pend : Word
  /-- The arrays s and x, present only while a block is being computed (R21, R22). -/
  arrays : Option Arrays
  /-- The data memory (20_memory R61). -/
  mem : Memory
  /-- The OPEN parameter MemAdmit (00_scope R4); no step changes it. -/
  platform : Platform
  /-- The model's own: how many free values have been drawn (DESIGN CHOICE, log entry 6). -/
  draws : Nat
  /-- The model's own: host steps still to come before the engine's step (DESIGN CHOICE, log entry 4). -/
  delay : Nat
  /-- The model's own: delays fixed in advance for the commands to come (DESIGN CHOICE, log entry 4). -/
  schedule : List Nat
  /-- The model's own: the host's accesses still to come (DESIGN CHOICE, log entry 5). -/
  host : List HostAct
  /-- The model's own: what the host has read so far (DESIGN CHOICE, log entry 5). -/
  listing : List Seen
  deriving DecidableEq, Repr

/-- The model faults: runs the model gives no meaning to. -/
inductive Fault where
  /-- HOST_ACCESS (60_exceptions R197, 20_memory R68): raised by a host access to the register window that is not an aligned
  32-bit access at 0x00..0xFC. Safe: the model stops where a bus might go on. -/
  | hostAccess
  /-- DATA_RACE (60_exceptions R197, 20_memory R77): raised by a host data-memory access to a byte of the range of the
  PROCESS_* command in flight. Safe: the model stops where a device might give some value. -/
  | dataRace
  /-- Raised by a host data-memory access to a byte that does not exist (2^32 or above) or that MemAdmit does not admit
  (20_memory R61; DEDUCED, log entry 7). Safe: the model stops where a platform might go on. -/
  | hostUnadmitted
  deriving DecidableEq, Repr

/-- Reasons to give no meaning to a command. -/
inductive Refusal where
  /-- Raised only by an arm of `exec` whose command has no meaning yet, under its mnemonic. Safe. No arm does: every
  command is modelled. -/
  | notModelled (mnemonic : String)
  deriving DecidableEq, Repr

/-- The machine right after reset (10_state R44, 70_reset R211): every register and hidden element 0, no session, idle;
memory lists nothing, MemAdmit is OPEN and the host has nothing to do (DESIGN CHOICE, log entries 2, 3 and 5). -/
def State.reset : State where
  skey := Vector.replicate 8 0
  snonce := Vector.replicate 2 0
  sess := false
  exh := false
  ctr := 0
  key := Vector.replicate 8 0
  nonce := Vector.replicate 2 0
  wrmask := 0
  indexLo := 0
  indexHi := 0
  srcAddr := 0
  dstAddr := 0
  srcLen := 0
  dstLen := 0
  cmd := 0
  ks := Vector.replicate 16 0
  busy := false
  done := false
  werr := false
  fault := false
  err := .none
  pend := 0
  arrays := none
  mem := []
  platform := .unstated
  draws := 0
  delay := 0
  schedule := []
  host := []
  listing := []

end Sys2Proof.Machine
end

