-- ==== Sys2Proof/Machine/Ops.lean ====
section
/-! DEFINITION. Named operations over bytes, data memory, the counter and command completion: each is written once here
and used by every meaning. -/

namespace Sys2Proof.Machine

/-! ### Bytes and words (00_scope R9, 20_memory R63) -/

/-- The word of four bytes, lowest address first. -/
def wordOfBytes (b0 b1 b2 b3 : Byte) : Word := b3 ++ b2 ++ b1 ++ b0

/-- LE32(b, i): the little-endian word at position `i` of a byte sequence (00_scope R9). -/
def le32 (b : List Byte) (i : Nat) : Word :=
  wordOfBytes (b.getD i 0) (b.getD (i + 1) 0) (b.getD (i + 2) 0) (b.getD (i + 3) 0)

/-- Byte `k` of a word, bits 8k+7:8k (40_block_engine R121). -/
def byteOf (w : Word) (k : Nat) : Byte := w.extractLsb' (8 * k) 8

/-- LEbytes(w), lowest address first (00_scope R9). -/
def leBytes (w : Word) : List Byte := [byteOf w 0, byteOf w 1, byteOf w 2, byteOf w 3]

/-! ### Data memory (20_memory R60-R62) -/

/-- The number of data-memory bytes, 2^ADDR_W (20_memory R60). -/
def memLimit : Nat := 2 ^ 32

/-- What an address that memory does not list reads as (DESIGN CHOICE, log entry 2). -/
def unlistedByte : Byte := 0

/-- The byte at an address. -/
def memRead : Memory → Nat → Byte
  | [], _ => unlistedByte
  | (b, v) :: rest, a => if a = b then v else memRead rest a

/-- An entry at the head, left out where it says what an unlisted address says anyway. -/
def memCons (a : Nat) (v : Byte) (m : Memory) : Memory := if v = unlistedByte then m else (a, v) :: m

/-- Store one byte, keeping the canonical form. -/
def memWrite : Memory → Nat → Byte → Memory
  | [], a, v => memCons a v []
  | (b, u) :: rest, a, v =>
    if a < b then memCons a v ((b, u) :: rest)
    else if a = b then memCons a v rest
    else (b, u) :: memWrite rest a v

/-- Canonical form from address `lo` on: rising addresses inside the address space, no entry that says what an unlisted
address says. -/
def memWfFrom : Nat → Memory → Bool
  | _, [] => true
  | lo, (a, v) :: rest => lo ≤ a && a < memLimit && v != unlistedByte && memWfFrom (a + 1) rest

/-- The canonical form of memory. -/
def memWf (m : Memory) : Bool := memWfFrom 0 m

/-- The `n` bytes at addresses a, a+1, … (00_scope R14). -/
def memReadRange (m : Memory) : Nat → Nat → List Byte
  | _, 0 => []
  | a, n + 1 => memRead m a :: memReadRange m (a + 1) n

/-- Store bytes at a, a+1, …, ascending. -/
def memWriteRange : Memory → Nat → List Byte → Memory
  | m, _, [] => m
  | m, a, v :: vs => memWriteRange (memWrite m a v) (a + 1) vs

/-- Every existing byte of B[a .. a+n) takes a free value of draw `k` (60_exceptions R194, 70_reset R212; DESIGN CHOICE,
log entry 6). -/
def memScramble (k : Nat) : Nat → Nat → Memory → Memory
  | _, 0, m => m
  | a, n + 1, m => memScramble k (a + 1) n (if a < memLimit then memWrite m a (Config.freeByte k a) else m)

/-- A region admits an access of this kind. -/
def regionPermits (r : Region) : AccessKind → Bool
  | .read => r.readable
  | .write => r.writable

/-- MemAdmit(addr, kind) (00_scope R4, 20_memory R61). -/
def platformAdmits (p : Platform) (a : Nat) (kind : AccessKind) : Bool :=
  match p with
  | .unstated => Config.memAdmit a kind
  | .given regions => regions.any fun r => r.base ≤ a && a < r.base + r.size && regionPermits r kind

/-- MemAdmit on the state's platform. -/
def admits (s : State) (kind : AccessKind) (a : Nat) : Bool := platformAdmits s.platform a kind

/-- Is the address `a` a byte of B[base .. base+n) (00_scope R14)? -/
def inRange (base n a : Nat) : Bool := base ≤ a && a < base + n

/-! ### The counter (10_state R25, 41_commands R151) -/

/-- C = {EXH, CTR}, the 65-bit counter. -/
def counter (s : State) : Nat := (BitVec.ofBool s.exh ++ s.ctr).toNat

/-- {EXH, CTR} <- c, for c up to 2^64. -/
def setCounter (c : Nat) (s : State) : State :=
  { s with exh := decide (2 ^ 64 ≤ c), ctr := BitVec.ofNat 64 c }

/-! ### Completion and errors (00_scope R12, 60_exceptions R192, R194) -/

/-- complete(e): the command in flight ends with code `e`. The engine step ends with it, so the arrays of a block hold no
value any more (10_state R22). -/
def complete (e : ErrorCode) (s : State) : State :=
  { s with busy := false, done := true, err := e, arrays := none }

/-- raise E_x: complete with the code and stop, with no other effect (00_scope R12, 60_exceptions R192). This is the
block's only exception entry: it has no traps, saved registers or handler (R180). -/
def raiseError (e : ErrorCode) (s : State) : Host.Outcome State Fault Refusal := .next (complete e s)

/-- The fault E_BUS (60_exceptions R194): FAULT set, the counter and the `need` destination bytes free values (DESIGN
CHOICE, log entry 6), the command completed with E_BUS. -/
def busFault (need : Nat) (s : State) : State :=
  let drawn := setCounter (Config.freeCounter s.draws).val s
  complete .bus
    { drawn with
      fault := true
      mem := memScramble s.draws s.dstAddr.toNat need s.mem
      draws := s.draws + 1 }

end Sys2Proof.Machine
end

