-- ==== Sys2Proof/Machine/Flags.lean ====
section
/-! DEFINITION. The flags as the host reads them: STATUS and WRMASK (10_state R28, R34, R43), and the error code values. -/

namespace Sys2Proof.Machine

/-- The value of an error code in STATUS.ERR (60_exceptions R181). -/
def errorValue : ErrorCode → BitVec 8
  | .none => 0
  | .illegal => 1
  | .noSession => 2
  | .size => 3
  | .length => 4
  | .bufSize => 5
  | .range => 6
  | .overlap => 7
  | .ctrExhausted => 8
  | .bus => 9

/-- STATUS (10_state R34): BUSY 0, DONE 1, SESS 2, EXH 3, WERR 4, FAULT 5, bits 7:6 zero, ERR 15:8, bits 31:16 zero. -/
def statusWord (s : State) : Word :=
  (0 : BitVec 16) ++ errorValue s.err ++ (0 : BitVec 2) ++ BitVec.ofBool s.fault ++ BitVec.ofBool s.werr
    ++ BitVec.ofBool s.exh ++ BitVec.ofBool s.sess ++ BitVec.ofBool s.done ++ BitVec.ofBool s.busy

/-- WRMASK as a register: bits 31:10 read 0 (10_state R28). -/
def wrmaskWord (s : State) : Word := (0 : BitVec 22) ++ s.wrmask

/-- WRMASK with all ten staging words written (41_commands R143: WRMASK[9:0] = 0x3FF). -/
def allStaged : BitVec 10 := 0x3FF

/-- WRMASK[9:8], the nonce's staging bits (41_commands R144). -/
def nonceStaged (m : BitVec 10) : BitVec 2 := m.extractLsb' 8 2

/-- WRMASK with bit `i` set (10_state R28). -/
def setStaged (i : Nat) (m : BitVec 10) : BitVec 10 := m ||| (1#10 <<< i)

/-- WRMASK with bits 9:8 cleared (41_commands R144). -/
def clearNonceStaged (m : BitVec 10) : BitVec 10 := m &&& 0x0FF

end Sys2Proof.Machine
end

