-- ==== Sys2Proof/WellFormed.lean ====
section
/-! DEFINITION. Which commands can be encoded: ARG is a 24-bit unsigned number (30_encoding R91, R92). -/

namespace Sys2Proof

/-- The largest ARG plus one (30_encoding R91: 0 .. 2^24 - 1). -/
def argLimit : Nat := 2 ^ 24

/-- A command's argument fits its 24-bit field. PROCESS_BYTES with 65 or more is encodable and fails when it runs
(30_encoding R92, R94), so it is well formed. -/
def wellFormed : Instr → Bool
  | .nop => true
  | .sessionInit => true
  | .setNonce => true
  | .keystream => true
  | .processBlocks n => n < argLimit
  | .processBytes length => length < argLimit
  | .sessionClear => true

/-- The assembler's warning: `pbyt 65` and larger encodes, then fails with E_LENGTH (30_encoding R96). -/
def lengthWarning : Instr → Bool
  | .processBytes length => 64 < length
  | .nop => false
  | .sessionInit => false
  | .setNonce => false
  | .keystream => false
  | .processBlocks _ => false
  | .sessionClear => false

end Sys2Proof
end

