-- ==== Sys2Proof/Decode.lean ====
section
/-! DEFINITION. The command words (30_encoding R90-R98): decoding, total on all 2^32 words, and encoding. -/

namespace Sys2Proof

/-- OP, bits 7:0 of a command word (30_encoding R91). -/
def opField (w : Word) : BitVec 8 := w.extractLsb' 0 8

/-- ARG, bits 31:8 of a command word (30_encoding R91). -/
def argField (w : Word) : BitVec 24 := w.extractLsb' 8 24

/-- Why a word is ILLEGAL (30_encoding R95). -/
inductive IllegalReason where
  /-- An opcode 0x07..0xFF. -/
  | reservedOpcode (op : BitVec 8)
  /-- A CMD-Z opcode with a non-zero ARG. -/
  | nonzeroArg (op : BitVec 8) (arg : BitVec 24)
  deriving DecidableEq, Repr

/-- What a command word decodes to (30_encoding R94); ILLEGAL is no command (DEDUCED, log entry 1). -/
inductive Decoded where
  | command (i : Instr)
  | illegal (why : IllegalReason)
  deriving DecidableEq, Repr

/-- A CMD-Z command: its ARG must be 0 (30_encoding R92, R94). -/
def decodeZ (i : Instr) (op : BitVec 8) (arg : BitVec 24) : Decoded :=
  if arg = 0 then .command i else .illegal (.nonzeroArg op arg)

/-- The decode function of 30_encoding R94, total on all words. -/
def decode (w : Word) : Decoded :=
  let op := opField w
  let arg := argField w
  if op = 0x00 then decodeZ .nop op arg
  else if op = 0x01 then decodeZ .sessionInit op arg
  else if op = 0x02 then decodeZ .setNonce op arg
  else if op = 0x03 then decodeZ .keystream op arg
  else if op = 0x04 then .command (.processBlocks arg.toNat)
  else if op = 0x05 then .command (.processBytes arg.toNat)
  else if op = 0x06 then decodeZ .sessionClear op arg
  else .illegal (.reservedOpcode op)

/-- The opcode of each command (30_encoding R93). -/
def opcode : Instr → BitVec 8
  | .nop => 0x00
  | .sessionInit => 0x01
  | .setNonce => 0x02
  | .keystream => 0x03
  | .processBlocks _ => 0x04
  | .processBytes _ => 0x05
  | .sessionClear => 0x06

/-- The argument each command carries in ARG; 0 for CMD-Z (30_encoding R92). -/
def argument : Instr → Nat
  | .nop => 0
  | .sessionInit => 0
  | .setNonce => 0
  | .keystream => 0
  | .processBlocks n => n
  | .processBytes length => length
  | .sessionClear => 0

/-- The word of a command: ARG in bits 31:8, OP in bits 7:0 (30_encoding R91-R93). -/
def encode (i : Instr) : Word := BitVec.ofNat 24 (argument i) ++ opcode i

/-- The instruction read from the low `nbits` bits of `w`, numbered as spec/opcode_table.json numbers them: a command is
one 32-bit word (30_encoding R90), and every bit above `nbits` is 0. -/
def decodeTableWord (nbits w : Nat) : Option Instr :=
  match decode (BitVec.ofNat 32 (w % 2 ^ nbits)) with
  | .command i => some i
  | .illegal _ => none

end Sys2Proof
end

