-- ==== Sys2Proof/Machine/Operands.lean ====
section
/-! DEFINITION. The operands of the commands: the registers they read (10_state R37, R42), the byte count a command needs,
and the buffer and counter checks (41_commands R150, R151). -/

namespace Sys2Proof.Machine

/-- The bytes of one block (00_scope R4, BLOCK_BYTES). -/
def blockBytes : Nat := 64

/-- The most bytes of one PROCESS_BYTES (00_scope R4, MAX_PARTIAL). -/
def maxPartial : Nat := 64

/-- The counter's ceiling, 2^64 blocks per nonce (41_commands R151). -/
def counterCeiling : Nat := 2 ^ 64

/-- INDEX_HI ++ INDEX_LO, the block index of KEYSTREAM (10_state R29). -/
def blockIndex (s : State) : BitVec 64 := s.indexHi ++ s.indexLo

/-- The block index the counter value `c` stands for; every index used is below 2^64 (41_commands R151). -/
def indexOfCounter (c : Nat) : BitVec 64 := BitVec.ofNat 64 c

/-- need, the byte count of a PROCESS_* command (41_commands R150); the other commands touch no data memory
(20_memory R60). -/
def streamNeed : Instr → Option Nat
  | .processBlocks n => some (blockBytes * n)
  | .processBytes length => some length
  | .nop => none
  | .sessionInit => none
  | .setNonce => none
  | .keystream => none
  | .sessionClear => none

/-- need of the PROCESS_* command in flight, if one is (20_memory R77, 70_reset R212), also where it will fail its checks
(DEDUCED, log entry 10). -/
def activeNeed (s : State) : Option Nat :=
  match s.busy, decode s.pend with
  | true, .command i => streamNeed i
  | true, .illegal _ => none
  | false, _ => none

/-- RangeOK(a, need) (41_commands R150), with exact arithmetic. -/
def rangeOK (a need : Nat) : Bool := need = 0 || a + need ≤ memLimit

/-- Disjoint(a, b, need) (41_commands R150). -/
def rangesDisjoint (a b need : Nat) : Bool := need = 0 || a + need ≤ b || b + need ≤ a

/-- BuffersOK(s, d, need) (41_commands R150): in place or disjoint. -/
def buffersOK (src dst need : Nat) : Bool := src = dst || rangesDisjoint src dst need

/-- The checks PROCESS_BLOCKS and PROCESS_BYTES share, in the order of 60_exceptions R191: E_BUFSIZE, E_RANGE, E_OVERLAP,
E_CTR_EXHAUSTED, for `need` bytes and `blocks` counter values. -/
def streamCheck (need blocks : Nat) (s : State) : Option ErrorCode :=
  if s.srcLen.toNat < need || s.dstLen.toNat < need then some .bufSize
  else if !rangeOK s.srcAddr.toNat need || !rangeOK s.dstAddr.toNat need then some .range
  else if !buffersOK s.srcAddr.toNat s.dstAddr.toNat need then some .overlap
  else if counterCeiling < counter s + blocks then some .ctrExhausted
  else none

/-- Do the `n` bytes from `a` touch a byte of B[base .. base+need) (20_memory R77)? -/
def rangesTouch (a n base need : Nat) : Bool := 0 < n && 0 < need && a < base + need && base < a + n

end Sys2Proof.Machine
end

