-- ==== Sys2Proof/Machine/Session.lean ====
section
/-! DEFINITION. NOP, the session commands and ILLEGAL (41_commands R142, R143, R144, R148, R149). -/

namespace Sys2Proof.Machine

/-- KS0-KS15 all zero (10_state R35). -/
def zeroKs : Words16 := Vector.replicate 16 0

/-- NOP (41_commands R142). -/
def execNop (s : State) : Host.Outcome State Fault Refusal := .next (complete .none s)

/-- SESSION_INIT (41_commands R143). -/
def execSessionInit (s : State) : Host.Outcome State Fault Refusal :=
  if s.wrmask ≠ allStaged then raiseError .size s
  else
    let latched := { s with skey := s.key, snonce := s.nonce, sess := true, wrmask := 0, ks := zeroKs }
    .next (complete .none (setCounter 0 latched))

/-- SET_NONCE (41_commands R144). -/
def execSetNonce (s : State) : Host.Outcome State Fault Refusal :=
  if !s.sess then raiseError .noSession s
  else if nonceStaged s.wrmask ≠ 0b11 then raiseError .size s
  else
    let latched := { s with snonce := s.nonce, wrmask := clearNonceStaged s.wrmask, ks := zeroKs }
    .next (complete .none (setCounter 0 latched))

/-- SESSION_CLEAR (41_commands R148). -/
def execSessionClear (s : State) : Host.Outcome State Fault Refusal :=
  let cleared :=
    { s with
      skey := Vector.replicate 8 0
      snonce := Vector.replicate 2 0
      sess := false
      key := Vector.replicate 8 0
      nonce := Vector.replicate 2 0
      wrmask := 0
      ks := zeroKs }
  .next (complete .none (setCounter 0 cleared))

/-- ILLEGAL, every word that decodes as no command (41_commands R149). -/
def execIllegal (s : State) : Host.Outcome State Fault Refusal := raiseError .illegal s

end Sys2Proof.Machine
end

