-- ==== Sys2Proof/Machine/BlockEngine.lean ====
section
/-! DEFINITION. The Block Engine (40_block_engine R110-R126): pure functions of key, nonce and block index, and their
evaluation in the engine's arrays `s` and `x` (10_state R21). The constants, positions, wiring and groups are the spec's,
which marks them as general knowledge (93 G1-G4; PRESUMED, log entry 8). -/

namespace Sys2Proof.Machine

/-! ### Word operations -/

/-- add32(a, b), addition modulo 2^32 (40_block_engine R110). -/
def add32 (a b : Word) : Word := a + b

/-- rotl(v, c), the circular left rotation (00_scope R8, 40_block_engine R111). -/
def rotl (v : Word) (c : Nat) : Word := (v <<< c) ||| (v >>> (32 - c))

/-! ### State construction -/

/-- "expa" (40_block_engine R113). -/
def sigma0 : Word := 0x61707865

/-- "nd 3" (R113). -/
def sigma1 : Word := 0x3320646E

/-- "2-by" (R113). -/
def sigma2 : Word := 0x79622D32

/-- "te k" (R113). -/
def sigma3 : Word := 0x6B206574

/-- The low word of a block index, state word 8 (20_memory R63, 40_block_engine R114). -/
def indexLow (idx : BitVec 64) : Word := idx.extractLsb' 0 32

/-- The high word of a block index, state word 9. -/
def indexHigh (idx : BitVec 64) : Word := idx.extractLsb' 32 32

/-- Build(K, N, idx), the input state (40_block_engine R114). -/
def build (k : Vector Word 8) (n : Vector Word 2) (idx : BitVec 64) : Words16 :=
  #v[sigma0, k[0], k[1], k[2],
     k[3], sigma1, n[0], n[1],
     indexLow idx, indexHigh idx, sigma2, k[4],
     k[5], k[6], k[7], sigma3]

/-! ### Mixing -/

/-- QR(y0, y1, y2, y3), the quarter-round (40_block_engine R115). -/
def quarterRound (y0 y1 y2 y3 : Word) : Word × Word × Word × Word :=
  let z1 := y1 ^^^ rotl (add32 y0 y3) 7
  let z2 := y2 ^^^ rotl (add32 z1 y0) 9
  let z3 := y3 ^^^ rotl (add32 z2 z1) 13
  let z0 := y0 ^^^ rotl (add32 z3 z2) 18
  (z0, z1, z2, z3)

/-- (x[a], x[b], x[c], x[d]) <- QR(x[a], x[b], x[c], x[d]). -/
def quarterAt (a b c d : Fin 16) (x : Words16) : Words16 :=
  let z := quarterRound x[a] x[b] x[c] x[d]
  (((x.set a z.1).set b z.2.1).set c z.2.2.1).set d z.2.2.2

/-- ColumnRound(x) (40_block_engine R116). -/
def columnRound (x : Words16) : Words16 :=
  quarterAt 15 3 7 11 (quarterAt 10 14 2 6 (quarterAt 5 9 13 1 (quarterAt 0 4 8 12 x)))

/-- RowRound(x) (40_block_engine R117). -/
def rowRound (x : Words16) : Words16 :=
  quarterAt 15 12 13 14 (quarterAt 10 11 8 9 (quarterAt 5 6 7 4 (quarterAt 0 1 2 3 x)))

/-- DoubleRound(x) = RowRound(ColumnRound(x)) (40_block_engine R118). -/
def doubleRound (x : Words16) : Words16 := rowRound (columnRound x)

/-- Round `r` of 40_block_engine R119: odd rounds mix columns, even rounds mix rows. -/
def mixRound (r : Nat) (x : Words16) : Words16 := if r % 2 = 1 then columnRound x else rowRound x

/-- Rounds r, r+1, …, `k` of them. -/
def mixRounds : Nat → Nat → Words16 → Words16
  | _, 0, x => x
  | r, k + 1, x => mixRounds (r + 1) k (mixRound r x)

/-- The number of rounds, fixed (40_block_engine R119). -/
def roundCount : Nat := 20

/-- Mix20(s): rounds 1 to 20 (40_block_engine R119). -/
def mix20 (s : Words16) : Words16 := mixRounds 1 roundCount s

/-! ### Output -/

/-- FeedForward(x, s): word by word addition of the original state (40_block_engine R120). -/
def feedForward (x s : Words16) : Words16 := Vector.ofFn fun i => add32 x[i] s[i]

/-- Serialize(w): ks[4i + k] = w[i][8k+7:8k] (40_block_engine R121). -/
def serialize (w : Words16) : Vector Byte 64 :=
  Vector.ofFn fun p => byteOf (w[p.val / 4]'(by omega)) (p.val % 4)

/-- BlockWords(K, N, idx) (40_block_engine R122). -/
def blockWords (k : Vector Word 8) (n : Vector Word 2) (idx : BitVec 64) : Words16 :=
  feedForward (mix20 (build k n idx)) (build k n idx)

/-- Block(K, N, idx), the 64-byte keystream block (40_block_engine R122). -/
def block (k : Vector Word 8) (n : Vector Word 2) (idx : BitVec 64) : Vector Byte 64 :=
  serialize (blockWords k n idx)

/-! ### Evaluation in the engine's arrays (10_state R21, R22) -/

/-- Compute one block of the session: `s` is built and kept, `x` starts as `s` and goes through the 20 rounds. -/
def runBlock (idx : BitVec 64) (st : State) : State :=
  let s := build st.skey st.snonce idx
  { st with arrays := some { s := s, x := mix20 s } }

/-- The block's output words, from both arrays (40_block_engine R120); no block computed, no words. -/
def arraysOut (st : State) : Words16 :=
  match st.arrays with
  | some a => feedForward a.x a.s
  | none => Vector.replicate 16 0

/-- The block's output bytes, ks[0 .. 63]. -/
def arraysBytes (st : State) : List Byte := (serialize (arraysOut st)).toList

end Sys2Proof.Machine
end

