-- ==== Sys2Proof/Machine/Stream.lean ====
section
/-! DEFINITION. KEYSTREAM, PROCESS_BLOCKS and PROCESS_BYTES (41_commands R145, R146, R147). -/

namespace Sys2Proof.Machine

/-- KEYSTREAM (41_commands R145): the counter is neither read nor changed. -/
def execKeystream (s : State) : Host.Outcome State Fault Refusal :=
  if !s.sess then raiseError .noSession s
  else
    let t := runBlock (blockIndex s) s
    .next (complete .none { t with ks := arraysOut t })

/-- XOR keystream bytes onto memory, ascending, the read of each byte before its write (20_memory R70); `none` at the first
access that MemAdmit does not admit (R62). -/
def xorBytes : List Byte → Nat → Nat → State → Option State
  | [], _, _, s => some s
  | k :: ks, src, dst, s =>
    if admits s .read src && admits s .write dst then
      xorBytes ks (src + 1) (dst + 1) { s with mem := memWrite s.mem dst (memRead s.mem src ^^^ k) }
    else none

/-- `n` whole blocks in counter order from counter value `c` (41_commands R146). -/
def xorBlocks : Nat → Nat → Nat → Nat → State → Option State
  | 0, _, _, _, s => some s
  | n + 1, c, src, dst, s =>
    let t := runBlock (indexOfCounter c) s
    match xorBytes (arraysBytes t) src dst t with
    | none => none
    | some u => xorBlocks n (c + 1) (src + blockBytes) (dst + blockBytes) u

/-- The end of a PROCESS_* command started in `s`: E_BUS where the transfer met an access not admitted, else the counter
moves by `blocks` (41_commands R151). -/
def finishStream (need blocks : Nat) (s : State) : Option State → Host.Outcome State Fault Refusal
  | none => .next (busFault need s)
  | some t => .next (complete .none (setCounter (counter s + blocks) t))

/-- PROCESS_BLOCKS n (41_commands R146). -/
def execProcessBlocks (n : Nat) (s : State) : Host.Outcome State Fault Refusal :=
  if !s.sess then raiseError .noSession s
  else
    match streamCheck (blockBytes * n) n s with
    | some e => raiseError e s
    | none =>
      finishStream (blockBytes * n) n s (xorBlocks n (counter s) s.srcAddr.toNat s.dstAddr.toNat s)

/-- PROCESS_BYTES length (41_commands R147). -/
def execProcessBytes (length : Nat) (s : State) : Host.Outcome State Fault Refusal :=
  if !s.sess then raiseError .noSession s
  else if maxPartial < length then raiseError .length s
  else
    match streamCheck length 1 s with
    | some e => raiseError e s
    | none =>
      let t := runBlock (indexOfCounter (counter s)) s
      finishStream length 1 s (xorBytes ((arraysBytes t).take length) s.srcAddr.toNat s.dstAddr.toNat t)

end Sys2Proof.Machine
end

