-- ==== Sys2Proof/Machine/Dispatch.lean ====
section
/-! DEFINITION. One arm per command (30_encoding R93), each a direct call of its meaning. -/

namespace Sys2Proof.Machine

open Sys2Proof

def exec (i : Instr) (s : State) : Host.Outcome State Fault Refusal :=
  match i with
  | .nop => Sys2Proof.Machine.execNop s
  | .sessionInit => Sys2Proof.Machine.execSessionInit s
  | .setNonce => Sys2Proof.Machine.execSetNonce s
  | .keystream => Sys2Proof.Machine.execKeystream s
  | .processBlocks n => Sys2Proof.Machine.execProcessBlocks n s
  | .processBytes length => Sys2Proof.Machine.execProcessBytes length s
  | .sessionClear => Sys2Proof.Machine.execSessionClear s

end Sys2Proof.Machine
end

