-- ==== Sys2Proof/Machine/Engine.lean ====
section
/-! DEFINITION. The engine agent (00_scope R13, 41_commands R141). -/

namespace Sys2Proof.Machine

/-- The engine's one step while BUSY = 1 (41_commands R141): decode PEND and run the decoded command to its completion. -/
def engineStep (s : State) : Host.Outcome State Fault Refusal :=
  match decode s.pend with
  | .command i => exec i s
  | .illegal _ => execIllegal s

/-- Is the next step the engine's? It has one only while BUSY = 1; then it is taken once `delay` host steps have passed, or
at once when the host has nothing more to do (70_reset R221; DESIGN CHOICE, log entry 4). -/
def engineTurn (s : State) : Bool := s.busy && (s.host.isEmpty || s.delay == 0)

end Sys2Proof.Machine
end

