-- ==== Sys2Proof/Machine/Registers.lean ====
section
/-! DEFINITION. The register window (10_state R26-R39) and the acceptance of a command (41_commands R140). -/

namespace Sys2Proof.Machine

/-- Offset of a register in the window (10_state R37). -/
def regOffset : Reg → Nat
  | .key i => 4 * i.val
  | .nonce j => 0x20 + 4 * j.val
  | .indexLo => 0x28
  | .indexHi => 0x2C
  | .ctrLo => 0x30
  | .ctrHi => 0x34
  | .srcAddr => 0x38
  | .dstAddr => 0x3C
  | .srcLen => 0x40
  | .dstLen => 0x44
  | .cmd => 0x48
  | .status => 0x4C
  | .wrmask => 0x50
  | .ks i => 0x80 + 4 * i.val

/-- The register at a window offset; `none` at a reserved offset (10_state R36, R37). -/
def regAt (off : Nat) : Option Reg :=
  if off < 0x20 then some (.key (Fin.ofNat 8 (off / 4)))
  else if off < 0x28 then some (.nonce (Fin.ofNat 2 ((off - 0x20) / 4)))
  else if off = 0x28 then some .indexLo
  else if off = 0x2C then some .indexHi
  else if off = 0x30 then some .ctrLo
  else if off = 0x34 then some .ctrHi
  else if off = 0x38 then some .srcAddr
  else if off = 0x3C then some .dstAddr
  else if off = 0x40 then some .srcLen
  else if off = 0x44 then some .dstLen
  else if off = 0x48 then some .cmd
  else if off = 0x4C then some .status
  else if off = 0x50 then some .wrmask
  else if 0x80 ≤ off && off < 0xC0 then some (.ks (Fin.ofNat 16 ((off - 0x80) / 4)))
  else none

/-- The address of a window offset in the host's address space (00_scope R4: REG_BASE is OPEN). -/
def regAddress (off : Nat) : Nat := Config.regBase + off

/-- Is a host access of `width` bits at `off` the aligned 32-bit access at 0x00..0xFC that 20_memory R68 asks for? -/
def windowAccess (width off : Nat) : Bool := width = 32 && off % 4 = 0 && off ≤ 0xFC

/-- The value a register reads as; the key reads 0 (10_state R26-R35). -/
def readReg (r : Reg) (s : State) : Word :=
  match r with
  | .key _ => 0
  | .nonce j => s.nonce[j]
  | .indexLo => s.indexLo
  | .indexHi => s.indexHi
  | .ctrLo => s.ctr.extractLsb' 0 32
  | .ctrHi => s.ctr.extractLsb' 32 32
  | .srcAddr => s.srcAddr
  | .dstAddr => s.dstAddr
  | .srcLen => s.srcLen
  | .dstLen => s.dstLen
  | .cmd => s.cmd
  | .status => statusWord s
  | .wrmask => wrmaskWord s
  | .ks i => s.ks[i]

/-- RegRead(off) (10_state R38); a reserved offset reads 0 (R36). -/
def regRead (off : Nat) (s : State) : Word :=
  match regAt off with
  | some r => readReg r s
  | none => 0

/-- The delay of the command now accepted: the next one of the schedule, or BLOCK_LATENCY's (DESIGN CHOICE, log entry 4). -/
def takeDelay (s : State) : State :=
  match s.schedule with
  | d :: rest => { s with delay := d, schedule := rest }
  | [] => { s with delay := Config.blockLatency s.draws, draws := s.draws + 1 }

/-- Command acceptance (41_commands R140): CMD and PEND take the word, BUSY 1, DONE 0, ERR 0. -/
def acceptCommand (v : Word) (s : State) : State :=
  takeDelay { s with cmd := v, pend := v, busy := true, done := false, err := .none }

/-- A write to a register while BUSY = 0 and FAULT = 0 (10_state R39); read-only registers ignore it. -/
def writeReg (r : Reg) (v : Word) (s : State) : State :=
  match r with
  | .key i => { s with key := s.key.set i v, wrmask := setStaged i.val s.wrmask }
  | .nonce j => { s with nonce := s.nonce.set j v, wrmask := setStaged (8 + j.val) s.wrmask }
  | .indexLo => { s with indexLo := v }
  | .indexHi => { s with indexHi := v }
  | .srcAddr => { s with srcAddr := v }
  | .dstAddr => { s with dstAddr := v }
  | .srcLen => { s with srcLen := v }
  | .dstLen => { s with dstLen := v }
  | .cmd => acceptCommand v s
  | .status => if v.getLsbD 4 then { s with werr := false } else s
  | .ctrLo => s
  | .ctrHi => s
  | .wrmask => s
  | .ks _ => s

/-- RegWrite(off, v) (10_state R39): dropped with WERR while BUSY = 1 or FAULT = 1; ignored at a reserved offset. -/
def regWrite (off : Nat) (v : Word) (s : State) : State :=
  if s.busy || s.fault then { s with werr := true }
  else
    match regAt off with
    | some r => writeReg r v s
    | none => s

end Sys2Proof.Machine
end

