-- ==== Sys2Proof/Machine/HostPort.lean ====
section
/-! DEFINITION. The host agent (00_scope R13): register accesses, data-memory accesses and reset, one per step. -/

namespace Sys2Proof.Machine

/-- What the host read is added to its listing (30_encoding R96). -/
def see (x : Seen) (s : State) : State := { s with listing := s.listing ++ [x] }

/-- A host read of the window (10_state R38): no state of the block changes; any other access is HOST_ACCESS
(20_memory R68). -/
def hostRead (width off : Nat) (s : State) : Host.Outcome State Fault Refusal :=
  if windowAccess width off then .next (see (.reg off (regRead off s)) s) else .fault .hostAccess

/-- A host write of the window (10_state R39); any other access is HOST_ACCESS (20_memory R68). -/
def hostWrite (width off : Nat) (v : Word) (s : State) : Host.Outcome State Fault Refusal :=
  if windowAccess width off then .next (regWrite off v s) else .fault .hostAccess

/-- Does a host data access of `n` bytes at `a` touch the source or destination range of the PROCESS_* command in flight
(20_memory R77)? -/
def racesActive (a n : Nat) (s : State) : Bool :=
  match activeNeed s with
  | none => false
  | some need => rangesTouch a n s.srcAddr.toNat need || rangesTouch a n s.dstAddr.toNat need

/-- Does every one of the `n` bytes from `a` exist and admit this kind of access (20_memory R61)? -/
def hostAdmitted (kind : AccessKind) (s : State) : Nat → Nat → Bool
  | _, 0 => true
  | a, n + 1 => a < memLimit && admits s kind a && hostAdmitted kind s (a + 1) n

/-- A host read of data memory: the last values written (20_memory R75), unless it races or is not admitted. -/
def hostMemRead (a n : Nat) (s : State) : Host.Outcome State Fault Refusal :=
  if racesActive a n s then .fault .dataRace
  else if !hostAdmitted .read s a n then .fault .hostUnadmitted
  else .next (see (.mem a (memReadRange s.mem a n)) s)

/-- A host write of data memory, unless it races or is not admitted. -/
def hostMemWrite (a : Nat) (bs : List Byte) (s : State) : Host.Outcome State Fault Refusal :=
  if racesActive a bs.length s then .fault .dataRace
  else if !hostAdmitted .write s a bs.length then .fault .hostUnadmitted
  else .next { s with mem := memWriteRange s.mem a bs }

/-- Data memory after reset: unchanged, but for the destination range of an abandoned PROCESS_* command, whose bytes are
free values (70_reset R211, R212; DESIGN CHOICE, log entry 6). -/
def memAfterReset (s : State) : Memory :=
  match activeNeed s with
  | none => s.mem
  | some need => memScramble s.draws s.dstAddr.toNat need s.mem

/-- The reset input (70_reset R210-R212): every element of the block takes its reset value; the data memory, the platform and
the host's own records stay. -/
def resetBlock (s : State) : State :=
  { State.reset with
    mem := memAfterReset s
    platform := s.platform
    draws := s.draws + 1
    schedule := s.schedule
    host := s.host
    listing := s.listing }

/-- Does the assertion of `check e` hold of a STATUS value: ERR = e and DONE = 1 (30_encoding R97)? -/
def checkHolds (e : Byte) (status : Word) : Bool := status.extractLsb' 8 8 == e && status.getLsbD 1

/-- One `rd STATUS` of a `poll`: while BUSY = 1 the poll comes again (30_encoding R96). -/
def hostPoll (s : State) : State :=
  let seen := see (.reg (regOffset .status) (regRead (regOffset .status) s)) s
  if s.busy then { seen with host := .poll :: seen.host } else seen

/-- `check e`: `rd STATUS`, and whether the assertion holds. -/
def hostCheck (e : Byte) (s : State) : State :=
  let v := regRead (regOffset .status) s
  see (.checked e (checkHolds e v)) (see (.reg (regOffset .status) v) s)

/-- One host step. -/
def hostAct (a : HostAct) (s : State) : Host.Outcome State Fault Refusal :=
  match a with
  | .rd width off => hostRead width off s
  | .wr width off v => hostWrite width off v s
  | .poll => .next (hostPoll s)
  | .memRead a n => hostMemRead a n s
  | .memWrite a bs => hostMemWrite a bs s
  | .reset => .next (resetBlock s)
  | .check e => .next (hostCheck e s)

end Sys2Proof.Machine
end

