-- ==== Sys2Proof/Machine/Schedule.lean ====
section
/-! DEFINITION. Which agent moves (00_scope R13, 20_memory R75): the engine when it is its turn, else the host with its next
access; with neither, the idle block keeps all its state (60_exceptions R204). -/

namespace Sys2Proof.Machine

/-- One step of the machine. -/
def machineStep (s : State) : Host.Outcome State Fault Refusal :=
  if engineTurn s then engineStep s
  else
    match s.host with
    | [] => .next s
    | a :: rest => hostAct a { s with host := rest, delay := s.delay - 1 }

/-- The command word `v` accepted and due: the state 41_commands R140 leaves, with the engine's step next. -/
def placeCommand (v : Word) (s : State) : State :=
  { s with cmd := v, pend := v, busy := true, done := false, err := .none, delay := 0 }

end Sys2Proof.Machine
end

