-- ==== Sys2Proof/Machine/Step.lean ====
section
/-! DEFINITION. The step of the machine, and the placing of a command word where the step takes its next command from. -/

namespace Sys2Proof.Machine

/-- One step: of the engine, of the host, or none to take. -/
def step (s : State) : Host.Outcome State Fault Refusal := machineStep s

/-- `s` with a command word accepted, so that the very next step runs it: a command is one 32-bit CMD write
(30_encoding R90), and it stands in PEND while in flight (10_state R40). Log entry 5. -/
def State.withFetchWord (s : State) (nbits w : Nat) : State :=
  placeCommand (BitVec.ofNat 32 (w % 2 ^ nbits)) s

end Sys2Proof.Machine
end

