-- ==== Sys2Proof/Safety.lean ====
section
/-! DEFINITION. What counts as a safe run (60_exceptions R194, 70_reset R225), the conditions of a transfer, and the
invariants of the block, in the terms claims use. -/

namespace Sys2Proof.Machine

/-- A state with FAULT = 1 is never a good final state (60_exceptions R194). -/
abbrev Faulted (s : State) : Prop := s.fault = true

/-- The end of a run: the host has made its last access and BUSY = 0 (70_reset R225). -/
abbrev Final (s : State) : Prop := s.host = [] ∧ s.busy = false

/-- A good end of a run (70_reset R225), judged by its last state: a run in which FAULT was 1 and which the host then reset
may end well, since reset clears FAULT (60_exceptions R194; DESIGN CHOICE, log entry 12). -/
abbrev GoodFinal (s : State) : Prop := Final s ∧ ¬ Faulted s

/-- The engine's step is the next one. -/
abbrev EngineDue (s : State) : Prop := s.busy = true ∧ (s.host = [] ∨ s.delay = 0)

/-- `a` is a byte of B[base .. base+n) (00_scope R14). -/
abbrev InRange (base n a : Nat) : Prop := base ≤ a ∧ a < base + n

/-- Every check of a PROCESS_* command passes for `need` bytes and `blocks` counter values (41_commands R146, R147,
R150, R151). -/
abbrev Transferable (need blocks : Nat) (s : State) : Prop :=
  s.sess = true
    ∧ need ≤ s.srcLen.toNat ∧ need ≤ s.dstLen.toNat
    ∧ (need = 0 ∨ s.srcAddr.toNat + need ≤ 2 ^ 32 ∧ s.dstAddr.toNat + need ≤ 2 ^ 32)
    ∧ (s.srcAddr = s.dstAddr ∨ need = 0 ∨ s.srcAddr.toNat + need ≤ s.dstAddr.toNat
        ∨ s.dstAddr.toNat + need ≤ s.srcAddr.toNat)
    ∧ counter s + blocks ≤ 2 ^ 64

/-- MemAdmit holds for every access of a transfer of `need` bytes (20_memory R62). -/
abbrev AllAdmitted (need : Nat) (s : State) : Prop :=
  ∀ p, p < need →
    admits s .read (s.srcAddr.toNat + p) = true ∧ admits s .write (s.dstAddr.toNat + p) = true

/-- The keystream byte XORed at position `p` of a transfer (41_commands R152). -/
def streamByte (s : State) (p : Nat) : Byte :=
  (block s.skey s.snonce (indexOfCounter (counter s + p / 64)))[p % 64]'(Nat.mod_lt p (by decide))

/-- `m` is the data memory after a transfer of `need` bytes started in `s` (41_commands R152): the destination bytes are
the source bytes XORed with keystream, every other byte is as before. -/
abbrev StreamedInto (need : Nat) (s : State) (m : Memory) : Prop :=
  (∀ p, p < need →
      memRead m (s.dstAddr.toNat + p) = memRead s.mem (s.srcAddr.toNat + p) ^^^ streamByte s p)
    ∧ ∀ a, ¬ InRange s.dstAddr.toNat need a → memRead m a = memRead s.mem a

/-! ### Invariants -/

/-- The data memory is in canonical form. -/
abbrev MemoryCanonical (s : State) : Prop := memWf s.mem = true

/-- While EXH = 1, CTR = 0 (10_state R25). -/
abbrev CounterLegal (s : State) : Prop := s.exh = true → s.ctr = 0

/-- BUSY and DONE are never both 1 and ERR is 0 while a command is in flight (10_state R34); no command is in flight
while FAULT = 1, and FAULT = 1 exactly while the last command ended with E_BUS (60_exceptions R194). -/
abbrev FlagsLegal (s : State) : Prop :=
  (s.busy = true → s.done = false ∧ s.err = .none ∧ s.fault = false) ∧ (s.fault = true ↔ s.err = .bus)

/-- CMD shows the same value as PEND (10_state R40), and no block is being computed between steps (R22). -/
abbrev SequencerIdle (s : State) : Prop := s.cmd = s.pend ∧ s.arrays = none

/-- Without a session no key, nonce, counter or keystream remains (10_state R23-R25, R35; 41_commands R148). -/
abbrev NoSessionNoSecrets (s : State) : Prop :=
  s.sess = false →
    s.skey = Vector.replicate 8 0 ∧ s.snonce = Vector.replicate 2 0 ∧ s.exh = false ∧ s.ctr = 0
      ∧ s.ks = Vector.replicate 16 0

/-- All of them. -/
abbrev Inv (s : State) : Prop :=
  MemoryCanonical s ∧ CounterLegal s ∧ FlagsLegal s ∧ SequencerIdle s ∧ NoSessionNoSecrets s

end Sys2Proof.Machine
end

