-- ==== Sys2Proof/Certificates/Slice0/Obligations.lean ====
section
/-! DEFINITION. The statements for the provers, from the numbered rules of spec/. A statement about a next state gives the
whole next state: what is not named in it is unchanged. `arrays := none` is 10_state R22: no block is being computed once
the engine's step is over. -/

open Sys2Proof Sys2Proof.Machine

/-! ### Encoding -/

/-- 30_encoding R91-R94: the word of a well-formed command decodes to that command, its argument at every value of the
24-bit field. -/
def Obligations.CommandWordRoundTrip : Prop :=
  ∀ i : Instr, wellFormed i = true → decode (encode i) = .command i

/-- 30_encoding R91-R94: a word that decodes to a command is that command's word, so no two words are one command. -/
def Obligations.DecodedWordIsEncoded : Prop :=
  ∀ (w : Word) (i : Instr), decode w = .command i → wellFormed i = true ∧ encode i = w

/-- 30_encoding R98: the example words, one per format and two that are ILLEGAL. -/
def Obligations.SpecExampleWordsDecode : Prop :=
  decode 0x00000001 = .command .sessionInit
    ∧ decode 0x00001004 = .command (.processBlocks 16) ∧ streamNeed (.processBlocks 16) = some 1024
    ∧ decode 0x00002405 = .command (.processBytes 36)
    ∧ decode 0x00004005 = .command (.processBytes 64)
    ∧ decode 0xFFFFFF04 = .command (.processBlocks 16777215)
    ∧ decode 0x00000101 = .illegal (.nonzeroArg 1 1)
    ∧ decode 0x00000007 = .illegal (.reservedOpcode 7)

/-- 30_encoding R95, 41_commands R149, 60_exceptions R182: exactly the reserved words decode as ILLEGAL; with one in flight
the engine's step changes only BUSY, DONE and ERR (E_ILLEGAL), and the next command is accepted as usual. -/
def Obligations.ReservedWordsEndWithEIllegal : Prop :=
  ∀ w : Word,
    ((∃ why, decode w = .illegal why)
        ↔ 7 ≤ w.toNat % 256 ∨ (w.toNat % 256 ∈ [0, 1, 2, 3, 6] ∧ w.toNat / 256 ≠ 0))
      ∧ ∀ s : State, EngineDue s → s.pend = w → (∃ why, decode w = .illegal why) →
        ∃ t, step s = .next t
          ∧ t = { s with busy := false, done := true, err := .illegal, arrays := none }
          ∧ (s.fault = false → ∀ v, (regWrite 0x48 v t).busy = true ∧ (regWrite 0x48 v t).pend = v)

/-! ### The step -/

/-- 41_commands R141: when the engine's step is due and PEND decodes to a command, the step is that command's meaning, with
nothing around it. -/
def Obligations.EngineStepRunsDecodedCommand : Prop :=
  ∀ (s : State) (i : Instr), EngineDue s → decode s.pend = .command i → step s = exec i s

/-- 41_commands R141: the engine's step always ends, with BUSY = 0 and DONE = 1; it never faults. -/
def Obligations.EngineStepAlwaysCompletes : Prop :=
  ∀ s : State, EngineDue s → ∃ t, step s = .next t ∧ t.busy = false ∧ t.done = true ∧ t.cmd = s.cmd ∧ t.host = s.host

/-- 00_scope R13, log entries 4 and 5: when the engine's step is not due the next access of the host is made; with no access
left and no command in flight nothing changes (60_exceptions R204). -/
def Obligations.HostStepsAndIdleSteps : Prop :=
  (∀ (s : State) (a : HostAct) (rest : List HostAct), ¬ EngineDue s → s.host = a :: rest →
      step s = hostAct a { s with host := rest, delay := s.delay - 1 })
    ∧ ∀ s : State, Final s → step s = .next s

/-- 70_reset R221 (Hazards the host must respect): a host that polls sees the command end. The bound, `delay` host steps and
one more, is the model's choice (log entry 4); the spec says only that the delay is finite. -/
def Obligations.PollingReachesCompletion : Prop :=
  ∀ (s : State) (rest : List HostAct), s.busy = true → s.host = .poll :: rest →
    ∃ t, Sys2Proof.core.run (s.delay + 1) s = .next t ∧ t.busy = false ∧ t.done = true

/-! ### NOP and the session commands -/

/-- 41_commands R142: NOP completes in every state and changes only BUSY, DONE and ERR. -/
def Obligations.NopChangesOnlyDoneAndErr : Prop :=
  encode .nop = 0x00000000
    ∧ (∀ s : State, exec .nop s = .next { s with busy := false, done := true, err := .none, arrays := none })
    ∧ (∀ w : Word, w.toNat % 256 = 0 → w.toNat / 256 ≠ 0 → ∃ why, decode w = .illegal why)
    ∧ ∃ t, exec .nop (acceptCommand 0 State.reset) = .next t ∧ statusWord t = 0x00000002

/-- 41_commands R143: SESSION_INIT latches the staged key and nonce and starts the counter at 0, or raises E_SIZE; the
example's STATUS is 6. -/
def Obligations.SessionInitLatchesKeyAndNonce : Prop :=
  encode .sessionInit = 0x00000001
    ∧ (∀ s : State, s.wrmask = 0x3FF →
        exec .sessionInit s = .next
          { s with skey := s.key, snonce := s.nonce, sess := true, exh := false, ctr := 0, wrmask := 0,
                   ks := Vector.replicate 16 0, busy := false, done := true, err := .none, arrays := none })
    ∧ (∀ s : State, s.wrmask ≠ 0x3FF →
        exec .sessionInit s = .next { s with busy := false, done := true, err := .size, arrays := none })
    ∧ ∃ t, exec .sessionInit
          (([0x00, 0x04, 0x08, 0x0C, 0x10, 0x14, 0x18, 0x1C, 0x20, 0x24] : List Nat).foldl
            (fun s off => regWrite off 0 s) State.reset) = .next t
        ∧ t.sess = true ∧ counter t = 0 ∧ t.wrmask = 0 ∧ statusWord t = 0x00000006

/-- 41_commands R144: SET_NONCE latches the staged nonce and sets the counter to 0, the key and WRMASK[7:0] kept; without
a session it raises E_NOSESSION, without both nonce words E_SIZE. -/
def Obligations.SetNonceLatchesNonce : Prop :=
  encode .setNonce = 0x00000002
    ∧ (∀ s : State, s.sess = true → s.wrmask.extractLsb' 8 2 = 3 →
        ∃ m, exec .setNonce s = .next
            { s with snonce := s.nonce, exh := false, ctr := 0, wrmask := m, ks := Vector.replicate 16 0,
                     busy := false, done := true, err := .none, arrays := none }
          ∧ m.extractLsb' 8 2 = 0 ∧ m.extractLsb' 0 8 = s.wrmask.extractLsb' 0 8)
    ∧ (∀ s : State, s.sess = false →
        exec .setNonce s = .next { s with busy := false, done := true, err := .noSession, arrays := none })
    ∧ ∀ s : State, s.sess = true → s.wrmask.extractLsb' 8 2 ≠ 3 →
        exec .setNonce s = .next { s with busy := false, done := true, err := .size, arrays := none }

/-- 41_commands R145: KEYSTREAM writes the block at INDEX into KS0-KS15, whatever the counter and EXH, or raises
E_NOSESSION; the example's words. -/
def Obligations.KeystreamWritesTheIndexedBlock : Prop :=
  encode .keystream = 0x00000003
    ∧ (∀ s : State, s.sess = true →
        exec .keystream s = .next
          { s with ks := blockWords s.skey s.snonce (s.indexHi ++ s.indexLo),
                   busy := false, done := true, err := .none, arrays := none })
    ∧ (∀ s : State, s.sess = false →
        exec .keystream s = .next { s with busy := false, done := true, err := .noSession, arrays := none })
    ∧ (blockWords (Vector.replicate 8 0) (Vector.replicate 2 0) 0)[0] = 0x5BF6979A
    ∧ (blockWords (Vector.replicate 8 0) (Vector.replicate 2 0) 0)[1] = 0x1B724C9B
    ∧ (blockWords (Vector.replicate 8 0) (Vector.replicate 2 0) 0)[15] = 0x392AC12A

/-- 41_commands R148: SESSION_CLEAR zeroes session, staging, WRMASK, counter and keystream, with or without a session; after
it every session command but SESSION_INIT raises E_NOSESSION. -/
def Obligations.SessionClearZeroesTheSecrets : Prop :=
  encode .sessionClear = 0x00000006
    ∧ (∀ w : Word, w.toNat % 256 = 6 → w.toNat / 256 ≠ 0 → ∃ why, decode w = .illegal why)
    ∧ ∀ s : State, ∃ t, exec .sessionClear s = .next t
        ∧ t = { s with skey := Vector.replicate 8 0, snonce := Vector.replicate 2 0, sess := false, exh := false,
                       ctr := 0, key := Vector.replicate 8 0, nonce := Vector.replicate 2 0, wrmask := 0,
                       ks := Vector.replicate 16 0, busy := false, done := true, err := .none, arrays := none }
        ∧ regRead 0x30 t = 0 ∧ regRead 0x34 t = 0
        ∧ (s.werr = false → s.fault = false → statusWord t = 0x00000002)
        ∧ ∀ n : Nat, ∀ i ∈ [Instr.setNonce, Instr.keystream, Instr.processBlocks n, Instr.processBytes n],
            exec i t = .next { t with err := .noSession }

/-! ### The stream commands -/

/-- 41_commands R152 (with R151's counter): past their checks and with every access admitted, PROCESS_BLOCKS and PROCESS_BYTES
write source byte XOR keystream byte to every destination byte, leave every other byte alone, and move the counter. -/
def Obligations.StreamCommandsXorKeystream : Prop :=
  ∀ s : State, MemoryCanonical s →
    (∀ n, Transferable (64 * n) n s → AllAdmitted (64 * n) s →
      ∃ m, exec (.processBlocks n) s = .next
          { s with mem := m, exh := decide (counter s + n = 2 ^ 64), ctr := BitVec.ofNat 64 (counter s + n),
                   busy := false, done := true, err := .none, arrays := none }
        ∧ StreamedInto (64 * n) s m)
    ∧ ∀ length, length ≤ 64 → Transferable length 1 s → AllAdmitted length s →
      ∃ m, exec (.processBytes length) s = .next
          { s with mem := m, exh := decide (counter s + 1 = 2 ^ 64), ctr := BitVec.ofNat 64 (counter s + 1),
                   busy := false, done := true, err := .none, arrays := none }
        ∧ StreamedInto length s m

/-- 41_commands R146, R147: PROCESS_BLOCKS 0 succeeds in a session even when the counter is exhausted and the capacities
are 0, and changes nothing but BUSY, DONE and ERR; PROCESS_BYTES 0 touches no memory and moves the counter by 1. -/
def Obligations.EmptyTransfers : Prop :=
  (∀ s : State, s.sess = true → counter s ≤ 2 ^ 64 →
      ∃ t, exec (.processBlocks 0) s = .next t ∧ t.mem = s.mem ∧ counter t = counter s ∧ t.err = .none
        ∧ t = { s with busy := false, done := true, err := .none, arrays := none })
    ∧ ∀ s : State, s.sess = true → counter s < 2 ^ 64 →
      ∃ t, exec (.processBytes 0) s = .next t ∧ t.mem = s.mem ∧ counter t = counter s + 1 ∧ t.err = .none
        ∧ t = { s with exh := decide (counter s + 1 = 2 ^ 64), ctr := s.ctr + 1, busy := false, done := true,
                       err := .none, arrays := none }

/-- 60_exceptions R183: without a session SET_NONCE, KEYSTREAM, PROCESS_BLOCKS and PROCESS_BYTES raise E_NOSESSION; there is
none after reset, after SESSION_CLEAR and until a SESSION_INIT. -/
def Obligations.NoSessionIsReported : Prop :=
  (∀ s : State, s.sess = false → ∀ n : Nat,
      ∀ i ∈ [Instr.setNonce, Instr.keystream, Instr.processBlocks n, Instr.processBytes n],
        exec i s = .next { s with busy := false, done := true, err := .noSession, arrays := none })
    ∧ State.reset.sess = false
    ∧ (∀ s : State, (resetBlock s).sess = false)
    ∧ (∀ s t : State, exec .sessionClear s = .next t → t.sess = false)
    ∧ ∀ s t : State, step s = .next t → s.sess = false → t.sess = true →
        EngineDue s ∧ decode s.pend = .command .sessionInit ∧ t.err = .none

/-- 60_exceptions R184: E_SIZE from SESSION_INIT unless all ten staging words were written, and from SET_NONCE (with a
session) unless both nonce words were. -/
def Obligations.MissingStagingIsReported : Prop :=
  ∀ s : State,
    (s.wrmask ≠ 0x3FF →
        exec .sessionInit s = .next { s with busy := false, done := true, err := .size, arrays := none })
      ∧ (s.sess = true → ¬ (s.wrmask.getLsbD 8 = true ∧ s.wrmask.getLsbD 9 = true) →
        exec .setNonce s = .next { s with busy := false, done := true, err := .size, arrays := none })

/-- 60_exceptions R185: E_LENGTH from PROCESS_BYTES above 64 bytes (with a session), and nothing is processed. -/
def Obligations.LongPartialBlockIsReported : Prop :=
  ∀ (s : State) (length : Nat), s.sess = true → 64 < length →
    exec (.processBytes length) s = .next { s with busy := false, done := true, err := .length, arrays := none }

/-- 60_exceptions R186: E_BUFSIZE where a buffer holds fewer bytes than needed (and no earlier error applies). -/
def Obligations.SmallBufferIsReported : Prop :=
  ∀ s : State, s.sess = true →
    (∀ n, s.srcLen.toNat < 64 * n ∨ s.dstLen.toNat < 64 * n →
        exec (.processBlocks n) s = .next { s with busy := false, done := true, err := .bufSize, arrays := none })
      ∧ ∀ length, length ≤ 64 → s.srcLen.toNat < length ∨ s.dstLen.toNat < length →
        exec (.processBytes length) s = .next { s with busy := false, done := true, err := .bufSize, arrays := none }

/-- 60_exceptions R187: E_RANGE where a non-empty buffer runs past address 2^32 - 1 (and no earlier error applies). -/
def Obligations.AddressOverrunIsReported : Prop :=
  ∀ (s : State) (need : Nat), s.sess = true → need ≤ s.srcLen.toNat → need ≤ s.dstLen.toNat → 0 < need →
    2 ^ 32 < s.srcAddr.toNat + need ∨ 2 ^ 32 < s.dstAddr.toNat + need →
    (∀ n, need = 64 * n →
        exec (.processBlocks n) s = .next { s with busy := false, done := true, err := .range, arrays := none })
      ∧ (need ≤ 64 →
        exec (.processBytes need) s = .next { s with busy := false, done := true, err := .range, arrays := none })

/-- 60_exceptions R188: E_OVERLAP where two different non-empty ranges share a byte (and no earlier error applies). -/
def Obligations.OverlapIsReported : Prop :=
  ∀ (s : State) (need : Nat), s.sess = true → need ≤ s.srcLen.toNat → need ≤ s.dstLen.toNat → 0 < need →
    s.srcAddr.toNat + need ≤ 2 ^ 32 → s.dstAddr.toNat + need ≤ 2 ^ 32 → s.srcAddr ≠ s.dstAddr →
    (∃ a, InRange s.srcAddr.toNat need a ∧ InRange s.dstAddr.toNat need a) →
    (∀ n, need = 64 * n →
        exec (.processBlocks n) s = .next { s with busy := false, done := true, err := .overlap, arrays := none })
      ∧ (need ≤ 64 →
        exec (.processBytes need) s = .next { s with busy := false, done := true, err := .overlap, arrays := none })

/-- 60_exceptions R189: E_CTR_EXHAUSTED where the counter would pass 2^64 (and no earlier error applies); SESSION_INIT,
SET_NONCE and SESSION_CLEAR, when they succeed, and reset start the counter anew, and nothing else lowers it (E_BUS, which
leaves it open, apart). -/
def Obligations.ExhaustedCounterIsReported : Prop :=
  (∀ (s : State) (n : Nat), Transferable (64 * n) 0 { s with exh := false, ctr := 0 } → 2 ^ 64 < counter s + n →
      exec (.processBlocks n) s = .next { s with busy := false, done := true, err := .ctrExhausted, arrays := none })
    ∧ (∀ (s : State) (length : Nat), length ≤ 64 → Transferable length 0 { s with exh := false, ctr := 0 } →
        2 ^ 64 < counter s + 1 →
        exec (.processBytes length) s
          = .next { s with busy := false, done := true, err := .ctrExhausted, arrays := none })
    ∧ (∀ s t : State, ∀ i ∈ [Instr.sessionInit, Instr.setNonce, Instr.sessionClear],
        exec i s = .next t → t.err = .none → counter t = 0)
    ∧ (∀ s : State, counter (resetBlock s) = 0)
    ∧ ∀ s t : State, step s = .next t → counter t < counter s →
        (EngineDue s ∧ ∃ i ∈ [Instr.sessionInit, Instr.setNonce, Instr.sessionClear], decode s.pend = .command i)
          ∨ (∃ rest, s.host = .reset :: rest) ∨ t.err = .bus

/-- 60_exceptions R192: when the engine's step ends with one of the codes 1-8, nothing but BUSY, DONE and ERR has changed. -/
def Obligations.FailedChecksChangeOnlyDoneAndErr : Prop :=
  ∀ s t : State, EngineDue s → step s = .next t → t.err ≠ .none → t.err ≠ .bus →
    t = { s with busy := false, done := true, err := t.err, arrays := none }

/-- 60_exceptions R194: the effects of E_BUS, with the counter and the destination bytes left open, and what holds while
FAULT = 1. -/
def Obligations.BusErrorEffects : Prop :=
  (∀ (s : State) (i : Instr) (need : Nat),
      ((∃ n, i = .processBlocks n ∧ need = 64 * n ∧ Transferable need n s)
        ∨ (i = .processBytes need ∧ need ≤ 64 ∧ Transferable need 1 s)) →
      ¬ AllAdmitted need s →
      ∃ t, exec i s = .next t
        ∧ t = { s with fault := true, exh := t.exh, ctr := t.ctr, mem := t.mem, draws := t.draws,
                       busy := false, done := true, err := .bus, arrays := none }
        ∧ counter t ≤ 2 ^ 64
        ∧ ∀ a, ¬ InRange s.dstAddr.toNat need a → memRead t.mem a = memRead s.mem a)
    ∧ (∀ (s : State) (off : Nat) (v : Word), s.fault = true → regWrite off v s = { s with werr := true })
    ∧ (∀ s t : State, s.fault = true → s.busy = false → step s = .next t →
        t.fault = true ∨ ∃ rest, s.host = .reset :: rest)
    ∧ (∀ s : State, (resetBlock s).fault = false)
    ∧ (∀ (s : State) (off : Nat), s.fault = true → off % 4 = 0 → off ≤ 0xFC →
        ∃ t, hostAct (.rd 32 off) s = .next t ∧ t = { s with listing := s.listing ++ [.reg off (regRead off s)] })
    ∧ ∀ s : State, s.fault = true → ¬ GoodFinal s

/-- 41_commands R155: n blocks and then a partial block move the counter by n + 1; a failed command never moves it, E_BUS
apart. -/
def Obligations.CounterAfterBlocksAndPartialBlock : Prop :=
  (∀ (n length : Nat) (s t u v : State),
      exec (.processBlocks n) s = .next t → t.err = .none → counter u = counter t →
      exec (.processBytes length) u = .next v → v.err = .none → counter v = counter s + n + 1)
    ∧ ∀ (i : Instr) (s t : State), exec i s = .next t → t.err ≠ .none → t.err ≠ .bus → counter t = counter s

/-- 41_commands R153 (which the spec derives from R152, R112 and R123): the output bytes, wherever they lie now, processed
again from the same counter with the same key and nonce, are the bytes before the first processing. -/
def Obligations.DecryptionUndoesEncryption : Prop :=
  ∀ (s t u v : State), MemoryCanonical s → MemoryCanonical u →
    u.skey = s.skey → u.snonce = s.snonce → counter u = counter s →
    (∀ n, exec (.processBlocks n) s = .next t → t.err = .none →
        (∀ p, p < 64 * n → memRead u.mem (u.srcAddr.toNat + p) = memRead t.mem (s.dstAddr.toNat + p)) →
        exec (.processBlocks n) u = .next v → v.err = .none →
        ∀ p, p < 64 * n → memRead v.mem (u.dstAddr.toNat + p) = memRead s.mem (s.srcAddr.toNat + p))
      ∧ ∀ length, exec (.processBytes length) s = .next t → t.err = .none →
        (∀ p, p < length → memRead u.mem (u.srcAddr.toNat + p) = memRead t.mem (s.dstAddr.toNat + p)) →
        exec (.processBytes length) u = .next v → v.err = .none →
        ∀ p, p < length → memRead v.mem (u.dstAddr.toNat + p) = memRead s.mem (s.srcAddr.toNat + p)

/-- 41_commands R156, whole blocks: n1 + n2 blocks at once, or n1 and then n2 with the addresses advanced and the lengths
reduced, give the same memory and the same counter. -/
def Obligations.ChunkingDoesNotMatter : Prop :=
  ∀ (n1 n2 : Nat) (s t : State), MemoryCanonical s →
    exec (.processBlocks (n1 + n2)) s = .next t → t.err = .none →
    ∃ u, exec (.processBlocks n1) s = .next u ∧ u.err = .none
      ∧ ∃ v, exec (.processBlocks n2)
            { u with srcAddr := u.srcAddr + BitVec.ofNat 32 (64 * n1), dstAddr := u.dstAddr + BitVec.ofNat 32 (64 * n1),
                     srcLen := u.srcLen - BitVec.ofNat 32 (64 * n1),
                     dstLen := u.dstLen - BitVec.ofNat 32 (64 * n1) } = .next v
          ∧ v.err = .none ∧ v.mem = t.mem ∧ counter v = counter t

/-- 41_commands R157: the bytes a stream command XORs into block j are the bytes of KS0-KS15 that KEYSTREAM gives for index
C + j under the same session. -/
def Obligations.KeystreamAgreesWithStream : Prop :=
  ∀ (s t r k : State) (j : Nat), MemoryCanonical s →
    r.sess = true → r.skey = s.skey → r.snonce = s.snonce →
    r.indexHi ++ r.indexLo = BitVec.ofNat 64 (counter s + j) → exec .keystream r = .next k →
    (∀ n, exec (.processBlocks n) s = .next t → t.err = .none → j < n →
        ∀ (i : Nat) (hi : i < 64),
          memRead t.mem (s.dstAddr.toNat + 64 * j + i)
            = memRead s.mem (s.srcAddr.toNat + 64 * j + i) ^^^ (k.ks[i / 4]'(by omega)).extractLsb' (8 * (i % 4)) 8)
      ∧ ∀ length, exec (.processBytes length) s = .next t → t.err = .none → j = 0 →
        ∀ (i : Nat) (hi : i < length) (h64 : i < 64),
          memRead t.mem (s.dstAddr.toNat + i)
            = memRead s.mem (s.srcAddr.toNat + i) ^^^ (k.ks[i / 4]'(by omega)).extractLsb' (8 * (i % 4)) 8

/-- 41_commands R150: RangeOK, Disjoint and BuffersOK, with exact arithmetic, and need for both commands. -/
def Obligations.BufferChecksAreExact : Prop :=
  ∀ a b need n : Nat,
    (rangeOK a need = true ↔ need = 0 ∨ a + need ≤ 2 ^ 32)
      ∧ (rangesDisjoint a b need = true ↔ need = 0 ∨ a + need ≤ b ∨ b + need ≤ a)
      ∧ (buffersOK a b need = true ↔ a = b ∨ need = 0 ∨ a + need ≤ b ∨ b + need ≤ a)
      ∧ streamNeed (.processBlocks n) = some (64 * n) ∧ streamNeed (.processBytes n) = some n

/-! ### The Block Engine -/

/-- 40_block_engine R110, R111, R112: addition modulo 2^32, circular left rotation by each amount that occurs, exclusive OR
bit by bit. -/
def Obligations.WordOperations : Prop :=
  (∀ a b : Word, (add32 a b).toNat = (a.toNat + b.toNat) % 2 ^ 32 ∧ add32 a b = add32 b a)
    ∧ (∀ (v : Word) (c : Nat), c ∈ [7, 9, 13, 18] → ∀ i, i < 32 →
        (rotl v c).getLsbD ((i + c) % 32) = v.getLsbD i)
    ∧ (∀ (a b : Word) (i : Nat), (a ^^^ b).getLsbD i = (a.getLsbD i ^^ b.getLsbD i))
    ∧ (∀ (a b : Byte) (i : Nat), (a ^^^ b).getLsbD i = (a.getLsbD i ^^ b.getLsbD i))
    ∧ (∀ a : Word, a ^^^ a = 0 ∧ a ^^^ 0 = a)
    ∧ add32 0xFFFFFFFF 1 = 0 ∧ add32 0x80000000 0x80000000 = 0 ∧ add32 0x61707865 0x04030201 = 0x65737A66
    ∧ rotl 0x80000001 7 = 0x000000C0 ∧ rotl 0x12345678 9 = 0x68ACF024 ∧ rotl 0x12345678 13 = 0x8ACF0246
    ∧ rotl 0x12345678 18 = 0x59E048D1
    ∧ (0x0000FFFF : Word) ^^^ 0x00FF00FF = 0x00FFFF00

/-- 40_block_engine R113, R114: the constants on the diagonal, the key in words 1-4 and 11-14, the nonce in 6-7, the index
in 8 (low) and 9 (high); the example. The constants and positions are the spec's `from general knowledge, not in source`
items (93 G1, G2; log entry 8), and so are the groups below. -/
def Obligations.InputStateLayout : Prop :=
  (∀ (k : Vector Word 8) (n : Vector Word 2) (idx : BitVec 64),
      build k n idx = (#v[0x61707865, k[0], k[1], k[2], k[3], 0x3320646E, n[0], n[1],
        idx.extractLsb' 0 32, idx.extractLsb' 32 32, 0x79622D32, k[4], k[5], k[6], k[7], 0x6B206574] : Words16))
    ∧ build #v[0x04030201, 0x08070605, 0x0C0B0A09, 0x100F0E0D, 0x14131211, 0x18171615, 0x1C1B1A19, 0x201F1E1D]
        #v[0x01040103, 0x06020905] 7
      = #v[0x61707865, 0x04030201, 0x08070605, 0x0C0B0A09, 0x100F0E0D, 0x3320646E, 0x01040103, 0x06020905,
           0x00000007, 0x00000000, 0x79622D32, 0x14131211, 0x18171615, 0x1C1B1A19, 0x201F1E1D, 0x6B206574]

/-- 40_block_engine R115: the quarter-round is a bijection on 128-bit values; its published examples. -/
def Obligations.QuarterRoundIsBijective : Prop :=
  Function.Bijective (fun y : Word × Word × Word × Word => quarterRound y.1 y.2.1 y.2.2.1 y.2.2.2)
    ∧ quarterRound 1 0 0 0 = (0x08008145, 0x00000080, 0x00010200, 0x20500000)
    ∧ quarterRound 0xE7E8C006 0xC4F9417D 0x6479B4B2 0x68C67137 = (0xE876D72B, 0x9361DFD5, 0xF1460244, 0x948541A3)

/-- 40_block_engine R116, R117: a column round mixes the four columns, a row round the four rows, each group from the words
before the round; so the order of the four does not matter. -/
def Obligations.RoundsMixColumnsAndRows : Prop :=
  ∀ x : Words16,
    (((columnRound x)[0], (columnRound x)[4], (columnRound x)[8], (columnRound x)[12]) = quarterRound x[0] x[4] x[8] x[12]
      ∧ ((columnRound x)[5], (columnRound x)[9], (columnRound x)[13], (columnRound x)[1])
          = quarterRound x[5] x[9] x[13] x[1]
      ∧ ((columnRound x)[10], (columnRound x)[14], (columnRound x)[2], (columnRound x)[6])
          = quarterRound x[10] x[14] x[2] x[6]
      ∧ ((columnRound x)[15], (columnRound x)[3], (columnRound x)[7], (columnRound x)[11])
          = quarterRound x[15] x[3] x[7] x[11])
    ∧ ((rowRound x)[0], (rowRound x)[1], (rowRound x)[2], (rowRound x)[3]) = quarterRound x[0] x[1] x[2] x[3]
    ∧ ((rowRound x)[5], (rowRound x)[6], (rowRound x)[7], (rowRound x)[4]) = quarterRound x[5] x[6] x[7] x[4]
    ∧ ((rowRound x)[10], (rowRound x)[11], (rowRound x)[8], (rowRound x)[9]) = quarterRound x[10] x[11] x[8] x[9]
    ∧ ((rowRound x)[15], (rowRound x)[12], (rowRound x)[13], (rowRound x)[14]) = quarterRound x[15] x[12] x[13] x[14]

/-- 40_block_engine R119: Mix20 is ten double rounds, fixes the all-zero state, and gives the example's word 0. -/
def Obligations.TwentyRoundsAreTenDoubleRounds : Prop :=
  (∀ s : Words16, mix20 s = doubleRound^[10] s)
    ∧ mix20 (Vector.replicate 16 0) = Vector.replicate 16 0
    ∧ (mix20 (build (Vector.replicate 8 0) (Vector.replicate 2 0) 0))[0] = 0xFA861F35

/-- 40_block_engine R120, R121: every output word is the mixed word plus the original word, and byte 4i + k of the block is
byte k of word i. -/
def Obligations.OutputIsFeedForwardSerialized : Prop :=
  (∀ (x s : Words16) (i : Nat) (hi : i < 16), (feedForward x s)[i] = x[i] + s[i])
    ∧ ∀ (w : Words16) (i k : Nat) (hi : i < 16) (hk : k < 4),
        (serialize w)[4 * i + k]'(by omega) = w[i].extractLsb' (8 * k) 8

/-- 40_block_engine R123: KEYSTREAM's result depends on key, nonce and index alone. -/
def Obligations.KeystreamDependsOnKeyNonceIndexOnly : Prop :=
  ∀ s r t u : State, s.sess = true → r.sess = true → s.skey = r.skey → s.snonce = r.snonce →
    s.indexLo = r.indexLo → s.indexHi = r.indexHi →
    exec .keystream s = .next t → exec .keystream r = .next u → t.ks = u.ks

/-! ### The register window -/

/-- 10_state R39: what a register write does, offset by offset, and what becomes of one while BUSY = 1 or FAULT = 1; any other
write access is HOST_ACCESS. -/
def Obligations.RegisterWritesFollowTheMap : Prop :=
  (∀ (s : State) (off : Nat) (v : Word), s.busy = true ∨ s.fault = true → regWrite off v s = { s with werr := true })
    ∧ (∀ (s : State) (v : Word), s.busy = false → s.fault = false →
        (∀ i : Fin 8, regWrite (4 * i.val) v s
            = { s with key := s.key.set i.val v, wrmask := s.wrmask ||| BitVec.twoPow 10 i.val })
          ∧ regWrite 0x20 v s = { s with nonce := s.nonce.set 0 v, wrmask := s.wrmask ||| 0x100 }
          ∧ regWrite 0x24 v s = { s with nonce := s.nonce.set 1 v, wrmask := s.wrmask ||| 0x200 }
          ∧ regWrite 0x28 v s = { s with indexLo := v } ∧ regWrite 0x2C v s = { s with indexHi := v }
          ∧ regWrite 0x38 v s = { s with srcAddr := v } ∧ regWrite 0x3C v s = { s with dstAddr := v }
          ∧ regWrite 0x40 v s = { s with srcLen := v } ∧ regWrite 0x44 v s = { s with dstLen := v }
          ∧ regWrite 0x48 v s = acceptCommand v s
          ∧ regWrite 0x4C v s = (if v.getLsbD 4 = true then { s with werr := false } else s)
          ∧ ∀ off, off % 4 = 0 → off = 0x30 ∨ off = 0x34 ∨ 0x50 ≤ off → regWrite off v s = s)
    ∧ ∀ (s : State) (width off : Nat) (v : Word),
        hostAct (.wr width off v) s
          = if width = 32 ∧ off % 4 = 0 ∧ off ≤ 0xFC then .next (regWrite off v s) else .fault .hostAccess

/-- 10_state R38 (with R26-R36's values): what each offset reads as; a read changes nothing but the host's listing, at any
time; any other read access is HOST_ACCESS. -/
def Obligations.RegisterReadsFollowTheMap : Prop :=
  (∀ s : State,
      (∀ i : Fin 8, regRead (4 * i.val) s = 0)
        ∧ regRead 0x20 s = s.nonce[0] ∧ regRead 0x24 s = s.nonce[1]
        ∧ regRead 0x28 s = s.indexLo ∧ regRead 0x2C s = s.indexHi
        ∧ regRead 0x30 s = s.ctr.extractLsb' 0 32 ∧ regRead 0x34 s = s.ctr.extractLsb' 32 32
        ∧ regRead 0x38 s = s.srcAddr ∧ regRead 0x3C s = s.dstAddr
        ∧ regRead 0x40 s = s.srcLen ∧ regRead 0x44 s = s.dstLen
        ∧ regRead 0x48 s = s.cmd ∧ regRead 0x4C s = statusWord s
        ∧ (regRead 0x50 s).toNat = s.wrmask.toNat
        ∧ (∀ i : Fin 16, regRead (0x80 + 4 * i.val) s = s.ks[i])
        ∧ ∀ off, (0x54 ≤ off ∧ off ≤ 0x7C) ∨ (0xC0 ≤ off ∧ off ≤ 0xFC) → regRead off s = 0)
    ∧ ∀ (s : State) (width off : Nat),
        hostAct (.rd width off) s
          = if width = 32 ∧ off % 4 = 0 ∧ off ≤ 0xFC
            then .next { s with listing := s.listing ++ [.reg off (regRead off s)] } else .fault .hostAccess

/-- 10_state R34, 60_exceptions R181: each STATUS bit reads its flag, ERR reads its code, with the ten values of R181, the
reserved bits read 0. -/
def Obligations.StatusBitsReadTheFlags : Prop :=
  (∀ s : State,
    (statusWord s).getLsbD 0 = s.busy ∧ (statusWord s).getLsbD 1 = s.done ∧ (statusWord s).getLsbD 2 = s.sess
      ∧ (statusWord s).getLsbD 3 = s.exh ∧ (statusWord s).getLsbD 4 = s.werr ∧ (statusWord s).getLsbD 5 = s.fault
      ∧ (statusWord s).extractLsb' 6 2 = 0 ∧ (statusWord s).extractLsb' 8 8 = errorValue s.err
      ∧ (statusWord s).extractLsb' 16 16 = 0 ∧ errorValue s.err ≤ 9)
    ∧ errorValue .none = 0 ∧ errorValue .illegal = 1 ∧ errorValue .noSession = 2 ∧ errorValue .size = 3
    ∧ errorValue .length = 4 ∧ errorValue .bufSize = 5 ∧ errorValue .range = 6 ∧ errorValue .overlap = 7
    ∧ errorValue .ctrExhausted = 8 ∧ errorValue .bus = 9

/-- 41_commands R140: an accepted CMD write stores the word, starts the command and clears DONE and ERR; of the block's state
nothing else changes (the delay is the model's own, log entry 4). -/
def Obligations.AcceptedCommandIsInFlight : Prop :=
  (∀ (s : State) (v : Word), s.busy = false → s.fault = false →
      ∃ t, regWrite 0x48 v s = t
        ∧ t = { s with cmd := v, pend := v, busy := true, done := false, err := .none,
                       delay := t.delay, draws := t.draws, schedule := t.schedule })
    ∧ ∀ (s : State) (v : Word), s.busy = true ∨ s.fault = true → regWrite 0x48 v s = { s with werr := true }

/-- 20_memory R68: a window access that is not an aligned 32-bit access at 0x00..0xFC is HOST_ACCESS, and no other is. -/
def Obligations.OddWindowAccessIsHostAccess : Prop :=
  ∀ (s : State) (width off : Nat) (v : Word),
    (¬ (width = 32 ∧ off % 4 = 0 ∧ off ≤ 0xFC) ↔ hostAct (.rd width off) s = .fault .hostAccess)
      ∧ (¬ (width = 32 ∧ off % 4 = 0 ∧ off ≤ 0xFC) ↔ hostAct (.wr width off v) s = .fault .hostAccess)

/-- 60_exceptions R195: WERR is set exactly by a dropped write, stays set until a STATUS write with bit 4 while BUSY = 0 and
FAULT = 0 or reset, and a dropped write changes neither ERR nor DONE. -/
def Obligations.WerrIsSticky : Prop :=
  (∀ s t : State, step s = .next t → s.werr = true →
      t.werr = true
        ∨ (∃ v rest, s.host = .wr 32 0x4C v :: rest ∧ v.getLsbD 4 = true ∧ s.busy = false ∧ s.fault = false)
        ∨ ∃ rest, s.host = .reset :: rest)
    ∧ (∀ s t : State, step s = .next t → s.werr = false → t.werr = true →
        ∃ off v rest, s.host = .wr 32 off v :: rest ∧ (s.busy = true ∨ s.fault = true))
    ∧ (∀ (s : State) (off : Nat) (v : Word) (rest : List HostAct), ¬ EngineDue s → s.host = .wr 32 off v :: rest →
        off % 4 = 0 → off ≤ 0xFC → s.busy = true ∨ s.fault = true →
        ∃ t, step s = .next t ∧ t.werr = true ∧ t.err = s.err ∧ t.done = s.done)
    ∧ (∀ (s : State) (v : Word), s.busy = false → s.fault = false → v.getLsbD 4 = true →
        regWrite 0x4C v s = { s with werr := false })
    ∧ ∀ s : State, (resetBlock s).werr = false

/-- 10_state R26, 60_exceptions R199: what a host step shows the host, and what it does to data memory, does not depend on
the staged key or the session key. -/
def Obligations.HostStepsDoNotRevealTheKey : Prop :=
  ∀ (s t : State) (k k' : Vector Word 8), ¬ EngineDue s → step s = .next t →
    ∃ u, step { s with key := k, skey := k' } = .next u ∧ u.listing = t.listing ∧ u.mem = t.mem

/-! ### Data memory, the host and reset -/

/-- 20_memory R77, R75: while a PROCESS_* command is in flight a host access to a byte of its ranges is DATA_RACE, also where
the command will fail its checks (log entry 10). An access to other bytes, admitted, goes through: a write stores its bytes
at `a`, `a + 1`, … and leaves every other byte, so both ranges, and all other state alone; a read lists the bytes
there and changes nothing. -/
def Obligations.RacingAccessIsDataRace : Prop :=
  ∀ (s : State) (i : Instr) (need a : Nat) (bs : List Byte), s.busy = true → decode s.pend = .command i →
    ((∃ n, i = .processBlocks n ∧ need = 64 * n) ∨ i = .processBytes need) →
    ((∃ b, InRange a bs.length b ∧ (InRange s.srcAddr.toNat need b ∨ InRange s.dstAddr.toNat need b)) →
        hostAct (.memWrite a bs) s = .fault .dataRace ∧ hostAct (.memRead a bs.length) s = .fault .dataRace)
      ∧ ((¬ ∃ b, InRange a bs.length b ∧ (InRange s.srcAddr.toNat need b ∨ InRange s.dstAddr.toNat need b)) →
        a + bs.length ≤ 2 ^ 32 →
        ((∀ p, p < bs.length → admits s .write (a + p) = true) →
            ∃ t, hostAct (.memWrite a bs) s = .next t ∧ t = { s with mem := t.mem }
              ∧ (MemoryCanonical s → ∀ p (hp : p < bs.length), memRead t.mem (a + p) = bs[p])
              ∧ ∀ b, ¬ InRange a bs.length b → memRead t.mem b = memRead s.mem b)
          ∧ ((∀ p, p < bs.length → admits s .read (a + p) = true) →
            hostAct (.memRead a bs.length) s
                = .next { s with listing := s.listing ++ [.mem a (memReadRange s.mem a bs.length)] }
              ∧ (memReadRange s.mem a bs.length).length = bs.length
              ∧ ∀ p, p < bs.length → (memReadRange s.mem a bs.length)[p]? = some (memRead s.mem (a + p))))

/-- 20_memory R61, R75: a host write of admitted bytes stores them and leaves every other byte and all other state alone, and
a read then gives them back. -/
def Obligations.HostWritesAreReadBack : Prop :=
  ∀ (s : State) (a : Nat) (bs : List Byte), MemoryCanonical s → s.busy = false → a + bs.length ≤ 2 ^ 32 →
    (∀ p, p < bs.length → admits s .write (a + p) = true ∧ admits s .read (a + p) = true) →
    ∃ t, hostAct (.memWrite a bs) s = .next t ∧ t = { s with mem := t.mem }
      ∧ (∀ b, ¬ InRange a bs.length b → memRead t.mem b = memRead s.mem b)
      ∧ hostAct (.memRead a bs.length) t = .next { t with listing := t.listing ++ [.mem a bs] }

/-- Log entry 7 (the model's reading of 20_memory R61): a host access to a byte that does not exist, or that MemAdmit does not
admit, is the fault hostUnadmitted where it does not race. -/
def Obligations.UnadmittedHostAccessFaults : Prop :=
  ∀ (s : State) (a : Nat) (bs : List Byte) (p : Nat), s.busy = false → p < bs.length →
    (2 ^ 32 ≤ a + p ∨ admits s .write (a + p) = false → hostAct (.memWrite a bs) s = .fault .hostUnadmitted)
      ∧ (2 ^ 32 ≤ a + p ∨ admits s .read (a + p) = false →
        hostAct (.memRead a bs.length) s = .fault .hostUnadmitted)

/-- 70_reset R211, R212: reset gives the block the state of State.reset; data memory stays, but for the destination range of
a PROCESS_* command in flight. -/
def Obligations.ResetClearsTheBlock : Prop :=
  ∀ s : State, ∃ t, hostAct .reset s = .next t
    ∧ t = { State.reset with
              mem := t.mem, platform := s.platform, draws := t.draws, schedule := s.schedule, host := s.host,
              listing := s.listing }
    ∧ (s.busy = false → t.mem = s.mem)
    ∧ (∀ n, decode s.pend = .command (.processBlocks n) →
        ∀ a, ¬ InRange s.dstAddr.toNat (64 * n) a → memRead t.mem a = memRead s.mem a)
    ∧ (∀ length, decode s.pend = .command (.processBytes length) →
        ∀ a, ¬ InRange s.dstAddr.toNat length a → memRead t.mem a = memRead s.mem a)
    ∧ ((∀ n, decode s.pend ≠ .command (.processBlocks n) ∧ decode s.pend ≠ .command (.processBytes n)) →
        t.mem = s.mem)

/-- 10_state R44: every register and hidden element holds 0 after reset, STATUS reads 0, and the block is idle without a
session (70_reset R213). -/
def Obligations.ResetValues : Prop :=
  State.reset.skey = Vector.replicate 8 0 ∧ State.reset.snonce = Vector.replicate 2 0
    ∧ State.reset.sess = false ∧ counter State.reset = 0 ∧ State.reset.busy = false ∧ State.reset.fault = false
    ∧ State.reset.pend = 0 ∧ State.reset.cmd = 0
    ∧ State.reset.key = Vector.replicate 8 0 ∧ State.reset.nonce = Vector.replicate 2 0 ∧ State.reset.wrmask = 0
    ∧ State.reset.indexLo = 0 ∧ State.reset.indexHi = 0 ∧ State.reset.srcAddr = 0 ∧ State.reset.dstAddr = 0
    ∧ State.reset.srcLen = 0 ∧ State.reset.dstLen = 0
    ∧ statusWord State.reset = 0 ∧ State.reset.ks = Vector.replicate 16 0
    ∧ (∀ off, regRead off State.reset = 0)
    ∧ ∀ s : State, s.busy = false → (resetBlock s).mem = s.mem

/-- 00_scope R9, 20_memory R63, R64: words and bytes are little-endian, lowest address first, at every position of a byte
sequence. -/
def Obligations.WordsAreLittleEndian : Prop :=
  (∀ b0 b1 b2 b3 : Byte,
      (le32 [b0, b1, b2, b3] 0).toNat = b0.toNat + 2 ^ 8 * b1.toNat + 2 ^ 16 * b2.toNat + 2 ^ 24 * b3.toNat)
    ∧ (∀ (b : List Byte) (i : Nat) (h : i + 4 ≤ b.length),
        (le32 b i).toNat = b[i].toNat + 2 ^ 8 * b[i + 1].toNat + 2 ^ 16 * b[i + 2].toNat + 2 ^ 24 * b[i + 3].toNat)
    ∧ (∀ w : Word, le32 (leBytes w) 0 = w ∧ (leBytes w).length = 4)
    ∧ leBytes 0x5BF6979A = [0x9A, 0x97, 0xF6, 0x5B]

/-! ### Invariants and whole-machine rules -/

/-- The invariants hold after reset. -/
def Obligations.ResetMeetsTheInvariants : Prop := Inv State.reset

/-- Every step keeps the data memory's canonical form. -/
def Obligations.StepKeepsMemoryCanonical : Prop :=
  ∀ s t : State, MemoryCanonical s → step s = .next t → MemoryCanonical t

/-- 10_state R25, R34, R40, R22, 60_exceptions R194: every step keeps EXH = 1 with CTR = 0, BUSY and DONE apart, ERR 0 in
flight, FAULT exactly with E_BUS, CMD equal to PEND and no block being computed. -/
def Obligations.StepKeepsStatusLegal : Prop :=
  ∀ s t : State, CounterLegal s → FlagsLegal s → SequencerIdle s → step s = .next t →
    CounterLegal t ∧ FlagsLegal t ∧ SequencerIdle t

/-- 10_state R23-R25, R35, 41_commands R148: every step keeps that without a session there is no key, nonce, counter or
keystream. -/
def Obligations.StepKeepsNoSessionNoSecrets : Prop :=
  ∀ s t : State, NoSessionNoSecrets s → step s = .next t → NoSessionNoSecrets t

/-- 10_state R23: only SESSION_INIT writes SKEY (from KEY0-7), only SESSION_INIT and SET_NONCE write SNONCE (from NONCE0-1),
SESSION_CLEAR and reset zero both; no offset reads or writes them. -/
def Obligations.OnlySessionCommandsChangeTheSessionKey : Prop :=
  (∀ s t : State, step s = .next t →
      (t.skey = s.skey ∧ t.snonce = s.snonce)
        ∨ (EngineDue s ∧ decode s.pend = .command .sessionInit ∧ t.skey = s.key ∧ t.snonce = s.nonce)
        ∨ (EngineDue s ∧ decode s.pend = .command .setNonce ∧ t.skey = s.skey ∧ t.snonce = s.nonce)
        ∨ (((EngineDue s ∧ decode s.pend = .command .sessionClear) ∨ ∃ rest, s.host = .reset :: rest)
            ∧ t.skey = Vector.replicate 8 0 ∧ t.snonce = Vector.replicate 2 0))
    ∧ (∀ (s : State) (off : Nat) (k : Vector Word 8) (n : Vector Word 2),
        regRead off { s with skey := k, snonce := n } = regRead off s)
    ∧ (∀ (s : State) (off : Nat) (v : Word),
        (regWrite off v s).skey = s.skey ∧ (regWrite off v s).snonce = s.snonce)
    ∧ (∀ s t : State, exec .sessionClear s = .next t →
        t.skey = Vector.replicate 8 0 ∧ t.snonce = Vector.replicate 2 0)
    ∧ (∀ s : State, (resetBlock s).skey = Vector.replicate 8 0 ∧ (resetBlock s).snonce = Vector.replicate 2 0)
    ∧ State.reset.skey = Vector.replicate 8 0 ∧ State.reset.snonce = Vector.replicate 2 0

/-- 10_state R25: the counter moves only by the blocks of a successful PROCESS_* command, goes to 0 only by SESSION_INIT,
SET_NONCE, SESSION_CLEAR and reset, and is left open only by E_BUS. -/
def Obligations.CounterMovesOnlyAsTheRulesSay : Prop :=
  ∀ s t : State, step s = .next t →
    (t.exh = s.exh ∧ t.ctr = s.ctr)
      ∨ (t.exh = false ∧ t.ctr = 0
          ∧ ((EngineDue s ∧ ∃ i ∈ [Instr.sessionInit, Instr.setNonce, Instr.sessionClear], decode s.pend = .command i)
            ∨ ∃ rest, s.host = .reset :: rest))
      ∨ (EngineDue s ∧ t.err = .none ∧ ∃ b,
          (decode s.pend = .command (.processBlocks b) ∨ (b = 1 ∧ ∃ l, decode s.pend = .command (.processBytes l)))
            ∧ counter t = counter s + b ∧ counter t ≤ 2 ^ 64)
      ∨ (EngineDue s ∧ t.err = .bus ∧ t.fault = true ∧ counter t ≤ 2 ^ 64)

/-- 20_memory R61, 00_scope R4: MemAdmit is a parameter: no step changes the platform. -/
def Obligations.StepKeepsThePlatform : Prop :=
  ∀ s t : State, step s = .next t → t.platform = s.platform

/-- 20_memory R60: of the commands only PROCESS_BLOCKS and PROCESS_BYTES touch the data memory, and they write no byte
outside their destination range, whatever the outcome. -/
def Obligations.CommandsWriteOnlyTheirDestination : Prop :=
  ∀ (s t : State) (i : Instr), exec i s = .next t →
    (streamNeed i = none → t.mem = s.mem)
      ∧ ∀ need, streamNeed i = some need → ∀ a, ¬ InRange s.dstAddr.toNat need a →
        memRead t.mem a = memRead s.mem a

/-- 10_state R35: KS0-KS15 change only by KEYSTREAM (a block), by SESSION_INIT, SET_NONCE and SESSION_CLEAR (zero) and by
reset (zero); PROCESS_* never write them, and no host write does. -/
def Obligations.KeystreamRegistersChangeOnlyAsTheRulesSay : Prop :=
  ∀ s t : State, step s = .next t →
    t.ks = s.ks
      ∨ (EngineDue s ∧ decode s.pend = .command .keystream
          ∧ t.ks = blockWords s.skey s.snonce (s.indexHi ++ s.indexLo))
      ∨ (t.ks = Vector.replicate 16 0
          ∧ ((EngineDue s ∧ ∃ i ∈ [Instr.sessionInit, Instr.setNonce, Instr.sessionClear], decode s.pend = .command i)
            ∨ ∃ rest, s.host = .reset :: rest))
end

