-- ==== Sys2Proof/Laws/Memory.lean ====
section
/-! SUPPORT. Data memory: a read after a write, every operation keeps the canonical form, and equal readings are equal
memories. -/

namespace Sys2Proof.Machine

@[simp] theorem memRead_memCons_same (a : Nat) (v : Byte) (m : Memory) (h : memWfFrom (a + 1) m = true) :
    memRead (memCons a v m) a = v := by
  unfold memCons
  split
  · rename_i hv
    subst hv
    suffices ∀ (m : Memory) (lo : Nat), a < lo → memWfFrom lo m = true → memRead m a = unlistedByte from
      this m (a + 1) (by omega) h
    intro m
    induction m with
    | nil => intros; rfl
    | cons c rest ih =>
      obtain ⟨b, u⟩ := c
      intro lo hlo hwf
      simp only [memWfFrom, Bool.and_eq_true, decide_eq_true_eq] at hwf
      have hne : a ≠ b := by omega
      simp only [memRead, if_neg hne]
      exact ih (b + 1) (by omega) hwf.2
  · simp [memRead]

theorem memRead_memCons_other (a b : Nat) (v : Byte) (m : Memory) (h : b ≠ a) :
    memRead (memCons a v m) b = memRead m b := by
  unfold memCons
  split
  · rfl
  · simp [memRead, h]

/-- The canonical form from a lower bound is canonical from any bound below it. -/
theorem memWfFrom_mono (m : Memory) (lo lo' : Nat) (h : lo' ≤ lo) (hm : memWfFrom lo m = true) :
    memWfFrom lo' m = true := by
  cases m with
  | nil => rfl
  | cons c rest =>
    obtain ⟨b, u⟩ := c
    simp only [memWfFrom, Bool.and_eq_true, decide_eq_true_eq] at hm ⊢
    exact ⟨⟨⟨by omega, hm.1.1.2⟩, hm.1.2⟩, hm.2⟩

/-- Below its lower bound a canonical memory lists nothing. -/
theorem memRead_below (m : Memory) (lo a : Nat) (ha : a < lo) (hm : memWfFrom lo m = true) :
    memRead m a = unlistedByte := by
  induction m generalizing lo with
  | nil => rfl
  | cons c rest ih =>
    obtain ⟨b, u⟩ := c
    simp only [memWfFrom, Bool.and_eq_true, decide_eq_true_eq] at hm
    have hne : a ≠ b := by omega
    simp only [memRead, if_neg hne]
    exact ih (b + 1) (by omega) hm.2

theorem memCons_wfFrom (lo a : Nat) (v : Byte) (m : Memory) (hlo : lo ≤ a) (ha : a < memLimit)
    (hm : memWfFrom (a + 1) m = true) : memWfFrom lo (memCons a v m) = true := by
  unfold memCons
  split
  · exact memWfFrom_mono m (a + 1) lo (by omega) hm
  · rename_i hv
    simp [memWfFrom, hlo, ha, hv, hm]

theorem memWrite_wfFrom (m : Memory) (lo a : Nat) (v : Byte) (hlo : lo ≤ a) (ha : a < memLimit)
    (hm : memWfFrom lo m = true) : memWfFrom lo (memWrite m a v) = true := by
  induction m generalizing lo with
  | nil => exact memCons_wfFrom lo a v [] hlo ha rfl
  | cons c rest ih =>
    obtain ⟨b, u⟩ := c
    have hm' := hm
    simp only [memWfFrom, Bool.and_eq_true, decide_eq_true_eq] at hm'
    unfold memWrite
    split
    · rename_i hab
      refine memCons_wfFrom lo a v _ hlo ha ?_
      simp only [memWfFrom, Bool.and_eq_true, decide_eq_true_eq]
      exact ⟨⟨⟨by omega, hm'.1.1.2⟩, hm'.1.2⟩, hm'.2⟩
    · split
      · rename_i hab
        subst hab
        exact memCons_wfFrom lo a v rest hlo ha hm'.2
      · simp only [memWfFrom, Bool.and_eq_true, decide_eq_true_eq]
        exact ⟨hm'.1, ih (b + 1) (by omega) hm'.2⟩

/-- Storing a byte keeps the canonical form. -/
theorem memWrite_wf (m : Memory) (a : Nat) (v : Byte) (ha : a < memLimit) (hm : memWf m = true) :
    memWf (memWrite m a v) = true := memWrite_wfFrom m 0 a v (Nat.zero_le a) ha hm

theorem memRead_memWrite_same_from (m : Memory) (lo a : Nat) (v : Byte) (hm : memWfFrom lo m = true) :
    memRead (memWrite m a v) a = v := by
  induction m generalizing lo with
  | nil => exact memRead_memCons_same a v [] rfl
  | cons c rest ih =>
    obtain ⟨b, u⟩ := c
    have hm' := hm
    simp only [memWfFrom, Bool.and_eq_true, decide_eq_true_eq] at hm'
    unfold memWrite
    split
    · rename_i hab
      refine memRead_memCons_same a v _ ?_
      simp only [memWfFrom, Bool.and_eq_true, decide_eq_true_eq]
      exact ⟨⟨⟨by omega, hm'.1.1.2⟩, hm'.1.2⟩, hm'.2⟩
    · split
      · rename_i hab
        subst hab
        exact memRead_memCons_same a v rest hm'.2
      · rename_i hne
        simp only [memRead, if_neg hne]
        exact ih (b + 1) hm'.2

/-- A read of the byte just stored gives it. -/
theorem memRead_memWrite_same (m : Memory) (a : Nat) (v : Byte) (hm : memWf m = true) :
    memRead (memWrite m a v) a = v := memRead_memWrite_same_from m 0 a v hm

/-- A store leaves every other byte alone. -/
theorem memRead_memWrite_other (m : Memory) (a b : Nat) (v : Byte) (h : b ≠ a) :
    memRead (memWrite m a v) b = memRead m b := by
  induction m with
  | nil => exact memRead_memCons_other a b v [] h
  | cons c rest ih =>
    obtain ⟨d, u⟩ := c
    unfold memWrite
    split
    · exact memRead_memCons_other a b v _ h
    · split
      · rename_i hab
        subst hab
        rw [memRead_memCons_other a b v rest h]
        simp [memRead, h]
      · simp only [memRead, ih]

/-- Storing a sequence keeps the canonical form. -/
theorem memWriteRange_wf (vs : List Byte) (m : Memory) (a : Nat) (ha : a + vs.length ≤ memLimit)
    (hm : memWf m = true) : memWf (memWriteRange m a vs) = true := by
  induction vs generalizing m a with
  | nil => exact hm
  | cons v vs ih =>
    simp only [List.length_cons] at ha
    exact ih _ _ (by omega) (memWrite_wf m a v (by omega) hm)

/-- Free values in a range keep the canonical form, wherever the range ends. -/
theorem memScramble_wf (k n a : Nat) (m : Memory) (hm : memWf m = true) :
    memWf (memScramble k a n m) = true := by
  induction n generalizing m a with
  | zero => exact hm
  | succ n ih =>
    unfold memScramble
    split
    · exact ih _ _ (memWrite_wf m a _ (by assumption) hm)
    · exact ih _ _ hm

/-- Free values in a range leave every byte outside it alone. -/
theorem memScramble_other (k n a b : Nat) (m : Memory) (h : ¬ (a ≤ b ∧ b < a + n)) :
    memRead (memScramble k a n m) b = memRead m b := by
  induction n generalizing m a with
  | zero => rfl
  | succ n ih =>
    unfold memScramble
    rw [ih (a + 1) _ (by omega)]
    split
    · exact memRead_memWrite_other m a b _ (by omega)
    · rfl

/-- Storing a sequence leaves every byte outside its range alone. -/
theorem memWriteRange_other (vs : List Byte) (m : Memory) (a b : Nat) (h : ¬ (a ≤ b ∧ b < a + vs.length)) :
    memRead (memWriteRange m a vs) b = memRead m b := by
  induction vs generalizing m a with
  | nil => rfl
  | cons v vs ih =>
    simp only [List.length_cons] at h
    simp only [memWriteRange]
    rw [ih _ (a + 1) (by omega)]
    exact memRead_memWrite_other m a b v (by omega)

/-- A range written reads back byte by byte. -/
theorem memRead_memWriteRange_inside (vs : List Byte) (m : Memory) (a : Nat) (ha : a + vs.length ≤ memLimit)
    (hm : memWf m = true) (p : Nat) (hp : p < vs.length) : memRead (memWriteRange m a vs) (a + p) = vs[p] := by
  induction vs generalizing m a p with
  | nil => simp at hp
  | cons v vs ih =>
    simp only [List.length_cons] at ha hp
    simp only [memWriteRange]
    cases p with
    | zero =>
      rw [memWriteRange_other _ _ _ _ (by omega)]
      exact memRead_memWrite_same m a v hm
    | succ p =>
      have := ih (memWrite m a v) (a + 1) (by omega) (memWrite_wf m a v (by omega) hm) p (by omega)
      rw [show a + (p + 1) = a + 1 + p by omega, this, List.getElem_cons_succ]

@[simp] theorem length_memReadRange (m : Memory) (a n : Nat) : (memReadRange m a n).length = n := by
  induction n generalizing a with
  | zero => rfl
  | succ n ih => simp [memReadRange, ih]

/-- A range read holds the byte of each address. -/
theorem getElem_memReadRange (m : Memory) (a n p : Nat) (hp : p < n) :
    (memReadRange m a n)[p]? = some (memRead m (a + p)) := by
  induction n generalizing a p with
  | zero => omega
  | succ n ih =>
    cases p with
    | zero => rfl
    | succ p =>
      have := ih (a + 1) p (by omega)
      rw [show a + (p + 1) = a + 1 + p by omega, ← this]
      rfl

theorem mem_ext_from (m m' : Memory) (lo : Nat) (hm : memWfFrom lo m = true) (hm' : memWfFrom lo m' = true)
    (h : ∀ a, memRead m a = memRead m' a) : m = m' := by
  induction m generalizing lo m' with
  | nil =>
    cases m' with
    | nil => rfl
    | cons c rest =>
      obtain ⟨b, u⟩ := c
      simp only [memWfFrom, Bool.and_eq_true, decide_eq_true_eq, bne_iff_ne] at hm'
      have := h b
      simp [memRead] at this
      exact absurd this.symm hm'.1.2
  | cons c rest ih =>
    obtain ⟨b, u⟩ := c
    have hw := hm
    simp only [memWfFrom, Bool.and_eq_true, decide_eq_true_eq, bne_iff_ne] at hw
    cases m' with
    | nil =>
      have := h b
      simp [memRead] at this
      exact absurd this hw.1.2
    | cons c' rest' =>
      obtain ⟨b', u'⟩ := c'
      have hw' := hm'
      simp only [memWfFrom, Bool.and_eq_true, decide_eq_true_eq, bne_iff_ne] at hw'
      have hb : b = b' := by
        rcases Nat.lt_trichotomy b b' with hlt | heq | hgt
        · have := h b
          have hne : b ≠ b' := by omega
          simp only [memRead, if_true, if_neg hne] at this
          rw [memRead_below rest' (b' + 1) b (by omega) hw'.2] at this
          exact absurd this hw.1.2
        · exact heq
        · have := h b'
          have hne : b' ≠ b := by omega
          simp only [memRead, if_true, if_neg hne] at this
          rw [memRead_below rest (b + 1) b' (by omega) hw.2] at this
          exact absurd this.symm hw'.1.2
      subst hb
      have hu := h b
      simp only [memRead, if_true] at hu
      subst hu
      have hr : rest = rest' := by
        refine ih rest' (b + 1) hw.2 hw'.2 fun a => ?_
        by_cases hab : a = b
        · subst hab
          rw [memRead_below rest (a + 1) a (by omega) hw.2, memRead_below rest' (a + 1) a (by omega) hw'.2]
        · have := h a
          simpa only [memRead, if_neg hab] using this
      rw [hr]

/-- Two canonical memories that read alike are equal. -/
theorem mem_ext (m m' : Memory) (hm : memWf m = true) (hm' : memWf m' = true)
    (h : ∀ a, memRead m a = memRead m' a) : m = m' := mem_ext_from m m' 0 hm hm' h

end Sys2Proof.Machine
end

