-- ==== Sys2Proof/Laws/State.lean ====
section
/-! SUPPORT. What each named update of the state does to each field, so that no later proof unfolds a record update. -/

namespace Sys2Proof.Machine

/-! ### complete -/

@[simp] theorem complete_skey (e : ErrorCode) (s : State) : (complete e s).skey = s.skey := rfl
@[simp] theorem complete_snonce (e : ErrorCode) (s : State) : (complete e s).snonce = s.snonce := rfl
@[simp] theorem complete_sess (e : ErrorCode) (s : State) : (complete e s).sess = s.sess := rfl
@[simp] theorem complete_exh (e : ErrorCode) (s : State) : (complete e s).exh = s.exh := rfl
@[simp] theorem complete_ctr (e : ErrorCode) (s : State) : (complete e s).ctr = s.ctr := rfl
@[simp] theorem complete_key (e : ErrorCode) (s : State) : (complete e s).key = s.key := rfl
@[simp] theorem complete_nonce (e : ErrorCode) (s : State) : (complete e s).nonce = s.nonce := rfl
@[simp] theorem complete_wrmask (e : ErrorCode) (s : State) : (complete e s).wrmask = s.wrmask := rfl
@[simp] theorem complete_indexLo (e : ErrorCode) (s : State) : (complete e s).indexLo = s.indexLo := rfl
@[simp] theorem complete_indexHi (e : ErrorCode) (s : State) : (complete e s).indexHi = s.indexHi := rfl
@[simp] theorem complete_srcAddr (e : ErrorCode) (s : State) : (complete e s).srcAddr = s.srcAddr := rfl
@[simp] theorem complete_dstAddr (e : ErrorCode) (s : State) : (complete e s).dstAddr = s.dstAddr := rfl
@[simp] theorem complete_srcLen (e : ErrorCode) (s : State) : (complete e s).srcLen = s.srcLen := rfl
@[simp] theorem complete_dstLen (e : ErrorCode) (s : State) : (complete e s).dstLen = s.dstLen := rfl
@[simp] theorem complete_cmd (e : ErrorCode) (s : State) : (complete e s).cmd = s.cmd := rfl
@[simp] theorem complete_ks (e : ErrorCode) (s : State) : (complete e s).ks = s.ks := rfl
@[simp] theorem complete_busy (e : ErrorCode) (s : State) : (complete e s).busy = false := rfl
@[simp] theorem complete_done (e : ErrorCode) (s : State) : (complete e s).done = true := rfl
@[simp] theorem complete_werr (e : ErrorCode) (s : State) : (complete e s).werr = s.werr := rfl
@[simp] theorem complete_fault (e : ErrorCode) (s : State) : (complete e s).fault = s.fault := rfl
@[simp] theorem complete_err (e : ErrorCode) (s : State) : (complete e s).err = e := rfl
@[simp] theorem complete_pend (e : ErrorCode) (s : State) : (complete e s).pend = s.pend := rfl
@[simp] theorem complete_arrays (e : ErrorCode) (s : State) : (complete e s).arrays = none := rfl
@[simp] theorem complete_mem (e : ErrorCode) (s : State) : (complete e s).mem = s.mem := rfl
@[simp] theorem complete_platform (e : ErrorCode) (s : State) : (complete e s).platform = s.platform := rfl
@[simp] theorem complete_draws (e : ErrorCode) (s : State) : (complete e s).draws = s.draws := rfl
@[simp] theorem complete_delay (e : ErrorCode) (s : State) : (complete e s).delay = s.delay := rfl
@[simp] theorem complete_schedule (e : ErrorCode) (s : State) : (complete e s).schedule = s.schedule := rfl
@[simp] theorem complete_host (e : ErrorCode) (s : State) : (complete e s).host = s.host := rfl
@[simp] theorem complete_listing (e : ErrorCode) (s : State) : (complete e s).listing = s.listing := rfl

/-! ### setCounter -/

@[simp] theorem setCounter_skey (c : Nat) (s : State) : (setCounter c s).skey = s.skey := rfl
@[simp] theorem setCounter_snonce (c : Nat) (s : State) : (setCounter c s).snonce = s.snonce := rfl
@[simp] theorem setCounter_sess (c : Nat) (s : State) : (setCounter c s).sess = s.sess := rfl
@[simp] theorem setCounter_exh (c : Nat) (s : State) : (setCounter c s).exh = decide (2 ^ 64 ≤ c) := rfl
@[simp] theorem setCounter_ctr (c : Nat) (s : State) : (setCounter c s).ctr = BitVec.ofNat 64 c := rfl
@[simp] theorem setCounter_key (c : Nat) (s : State) : (setCounter c s).key = s.key := rfl
@[simp] theorem setCounter_nonce (c : Nat) (s : State) : (setCounter c s).nonce = s.nonce := rfl
@[simp] theorem setCounter_wrmask (c : Nat) (s : State) : (setCounter c s).wrmask = s.wrmask := rfl
@[simp] theorem setCounter_indexLo (c : Nat) (s : State) : (setCounter c s).indexLo = s.indexLo := rfl
@[simp] theorem setCounter_indexHi (c : Nat) (s : State) : (setCounter c s).indexHi = s.indexHi := rfl
@[simp] theorem setCounter_srcAddr (c : Nat) (s : State) : (setCounter c s).srcAddr = s.srcAddr := rfl
@[simp] theorem setCounter_dstAddr (c : Nat) (s : State) : (setCounter c s).dstAddr = s.dstAddr := rfl
@[simp] theorem setCounter_srcLen (c : Nat) (s : State) : (setCounter c s).srcLen = s.srcLen := rfl
@[simp] theorem setCounter_dstLen (c : Nat) (s : State) : (setCounter c s).dstLen = s.dstLen := rfl
@[simp] theorem setCounter_cmd (c : Nat) (s : State) : (setCounter c s).cmd = s.cmd := rfl
@[simp] theorem setCounter_ks (c : Nat) (s : State) : (setCounter c s).ks = s.ks := rfl
@[simp] theorem setCounter_busy (c : Nat) (s : State) : (setCounter c s).busy = s.busy := rfl
@[simp] theorem setCounter_done (c : Nat) (s : State) : (setCounter c s).done = s.done := rfl
@[simp] theorem setCounter_werr (c : Nat) (s : State) : (setCounter c s).werr = s.werr := rfl
@[simp] theorem setCounter_fault (c : Nat) (s : State) : (setCounter c s).fault = s.fault := rfl
@[simp] theorem setCounter_err (c : Nat) (s : State) : (setCounter c s).err = s.err := rfl
@[simp] theorem setCounter_pend (c : Nat) (s : State) : (setCounter c s).pend = s.pend := rfl
@[simp] theorem setCounter_arrays (c : Nat) (s : State) : (setCounter c s).arrays = s.arrays := rfl
@[simp] theorem setCounter_mem (c : Nat) (s : State) : (setCounter c s).mem = s.mem := rfl
@[simp] theorem setCounter_platform (c : Nat) (s : State) : (setCounter c s).platform = s.platform := rfl
@[simp] theorem setCounter_draws (c : Nat) (s : State) : (setCounter c s).draws = s.draws := rfl
@[simp] theorem setCounter_delay (c : Nat) (s : State) : (setCounter c s).delay = s.delay := rfl
@[simp] theorem setCounter_schedule (c : Nat) (s : State) : (setCounter c s).schedule = s.schedule := rfl
@[simp] theorem setCounter_host (c : Nat) (s : State) : (setCounter c s).host = s.host := rfl
@[simp] theorem setCounter_listing (c : Nat) (s : State) : (setCounter c s).listing = s.listing := rfl

/-! ### runBlock -/

@[simp] theorem runBlock_skey (idx : BitVec 64) (s : State) : (runBlock idx s).skey = s.skey := rfl
@[simp] theorem runBlock_snonce (idx : BitVec 64) (s : State) : (runBlock idx s).snonce = s.snonce := rfl
@[simp] theorem runBlock_sess (idx : BitVec 64) (s : State) : (runBlock idx s).sess = s.sess := rfl
@[simp] theorem runBlock_exh (idx : BitVec 64) (s : State) : (runBlock idx s).exh = s.exh := rfl
@[simp] theorem runBlock_ctr (idx : BitVec 64) (s : State) : (runBlock idx s).ctr = s.ctr := rfl
@[simp] theorem runBlock_key (idx : BitVec 64) (s : State) : (runBlock idx s).key = s.key := rfl
@[simp] theorem runBlock_nonce (idx : BitVec 64) (s : State) : (runBlock idx s).nonce = s.nonce := rfl
@[simp] theorem runBlock_wrmask (idx : BitVec 64) (s : State) : (runBlock idx s).wrmask = s.wrmask := rfl
@[simp] theorem runBlock_indexLo (idx : BitVec 64) (s : State) : (runBlock idx s).indexLo = s.indexLo := rfl
@[simp] theorem runBlock_indexHi (idx : BitVec 64) (s : State) : (runBlock idx s).indexHi = s.indexHi := rfl
@[simp] theorem runBlock_srcAddr (idx : BitVec 64) (s : State) : (runBlock idx s).srcAddr = s.srcAddr := rfl
@[simp] theorem runBlock_dstAddr (idx : BitVec 64) (s : State) : (runBlock idx s).dstAddr = s.dstAddr := rfl
@[simp] theorem runBlock_srcLen (idx : BitVec 64) (s : State) : (runBlock idx s).srcLen = s.srcLen := rfl
@[simp] theorem runBlock_dstLen (idx : BitVec 64) (s : State) : (runBlock idx s).dstLen = s.dstLen := rfl
@[simp] theorem runBlock_cmd (idx : BitVec 64) (s : State) : (runBlock idx s).cmd = s.cmd := rfl
@[simp] theorem runBlock_ks (idx : BitVec 64) (s : State) : (runBlock idx s).ks = s.ks := rfl
@[simp] theorem runBlock_busy (idx : BitVec 64) (s : State) : (runBlock idx s).busy = s.busy := rfl
@[simp] theorem runBlock_done (idx : BitVec 64) (s : State) : (runBlock idx s).done = s.done := rfl
@[simp] theorem runBlock_werr (idx : BitVec 64) (s : State) : (runBlock idx s).werr = s.werr := rfl
@[simp] theorem runBlock_fault (idx : BitVec 64) (s : State) : (runBlock idx s).fault = s.fault := rfl
@[simp] theorem runBlock_err (idx : BitVec 64) (s : State) : (runBlock idx s).err = s.err := rfl
@[simp] theorem runBlock_pend (idx : BitVec 64) (s : State) : (runBlock idx s).pend = s.pend := rfl
@[simp] theorem runBlock_arrays (idx : BitVec 64) (s : State) : (runBlock idx s).arrays = some { s := build s.skey s.snonce idx, x := mix20 (build s.skey s.snonce idx) } := rfl
@[simp] theorem runBlock_mem (idx : BitVec 64) (s : State) : (runBlock idx s).mem = s.mem := rfl
@[simp] theorem runBlock_platform (idx : BitVec 64) (s : State) : (runBlock idx s).platform = s.platform := rfl
@[simp] theorem runBlock_draws (idx : BitVec 64) (s : State) : (runBlock idx s).draws = s.draws := rfl
@[simp] theorem runBlock_delay (idx : BitVec 64) (s : State) : (runBlock idx s).delay = s.delay := rfl
@[simp] theorem runBlock_schedule (idx : BitVec 64) (s : State) : (runBlock idx s).schedule = s.schedule := rfl
@[simp] theorem runBlock_host (idx : BitVec 64) (s : State) : (runBlock idx s).host = s.host := rfl
@[simp] theorem runBlock_listing (idx : BitVec 64) (s : State) : (runBlock idx s).listing = s.listing := rfl

/-! ### see -/

@[simp] theorem see_skey (x : Seen) (s : State) : (see x s).skey = s.skey := rfl
@[simp] theorem see_snonce (x : Seen) (s : State) : (see x s).snonce = s.snonce := rfl
@[simp] theorem see_sess (x : Seen) (s : State) : (see x s).sess = s.sess := rfl
@[simp] theorem see_exh (x : Seen) (s : State) : (see x s).exh = s.exh := rfl
@[simp] theorem see_ctr (x : Seen) (s : State) : (see x s).ctr = s.ctr := rfl
@[simp] theorem see_key (x : Seen) (s : State) : (see x s).key = s.key := rfl
@[simp] theorem see_nonce (x : Seen) (s : State) : (see x s).nonce = s.nonce := rfl
@[simp] theorem see_wrmask (x : Seen) (s : State) : (see x s).wrmask = s.wrmask := rfl
@[simp] theorem see_indexLo (x : Seen) (s : State) : (see x s).indexLo = s.indexLo := rfl
@[simp] theorem see_indexHi (x : Seen) (s : State) : (see x s).indexHi = s.indexHi := rfl
@[simp] theorem see_srcAddr (x : Seen) (s : State) : (see x s).srcAddr = s.srcAddr := rfl
@[simp] theorem see_dstAddr (x : Seen) (s : State) : (see x s).dstAddr = s.dstAddr := rfl
@[simp] theorem see_srcLen (x : Seen) (s : State) : (see x s).srcLen = s.srcLen := rfl
@[simp] theorem see_dstLen (x : Seen) (s : State) : (see x s).dstLen = s.dstLen := rfl
@[simp] theorem see_cmd (x : Seen) (s : State) : (see x s).cmd = s.cmd := rfl
@[simp] theorem see_ks (x : Seen) (s : State) : (see x s).ks = s.ks := rfl
@[simp] theorem see_busy (x : Seen) (s : State) : (see x s).busy = s.busy := rfl
@[simp] theorem see_done (x : Seen) (s : State) : (see x s).done = s.done := rfl
@[simp] theorem see_werr (x : Seen) (s : State) : (see x s).werr = s.werr := rfl
@[simp] theorem see_fault (x : Seen) (s : State) : (see x s).fault = s.fault := rfl
@[simp] theorem see_err (x : Seen) (s : State) : (see x s).err = s.err := rfl
@[simp] theorem see_pend (x : Seen) (s : State) : (see x s).pend = s.pend := rfl
@[simp] theorem see_arrays (x : Seen) (s : State) : (see x s).arrays = s.arrays := rfl
@[simp] theorem see_mem (x : Seen) (s : State) : (see x s).mem = s.mem := rfl
@[simp] theorem see_platform (x : Seen) (s : State) : (see x s).platform = s.platform := rfl
@[simp] theorem see_draws (x : Seen) (s : State) : (see x s).draws = s.draws := rfl
@[simp] theorem see_delay (x : Seen) (s : State) : (see x s).delay = s.delay := rfl
@[simp] theorem see_schedule (x : Seen) (s : State) : (see x s).schedule = s.schedule := rfl
@[simp] theorem see_host (x : Seen) (s : State) : (see x s).host = s.host := rfl
@[simp] theorem see_listing (x : Seen) (s : State) : (see x s).listing = s.listing ++ [x] := rfl

/-! ### placeCommand -/

@[simp] theorem placeCommand_skey (v : Word) (s : State) : (placeCommand v s).skey = s.skey := rfl
@[simp] theorem placeCommand_snonce (v : Word) (s : State) : (placeCommand v s).snonce = s.snonce := rfl
@[simp] theorem placeCommand_sess (v : Word) (s : State) : (placeCommand v s).sess = s.sess := rfl
@[simp] theorem placeCommand_exh (v : Word) (s : State) : (placeCommand v s).exh = s.exh := rfl
@[simp] theorem placeCommand_ctr (v : Word) (s : State) : (placeCommand v s).ctr = s.ctr := rfl
@[simp] theorem placeCommand_key (v : Word) (s : State) : (placeCommand v s).key = s.key := rfl
@[simp] theorem placeCommand_nonce (v : Word) (s : State) : (placeCommand v s).nonce = s.nonce := rfl
@[simp] theorem placeCommand_wrmask (v : Word) (s : State) : (placeCommand v s).wrmask = s.wrmask := rfl
@[simp] theorem placeCommand_indexLo (v : Word) (s : State) : (placeCommand v s).indexLo = s.indexLo := rfl
@[simp] theorem placeCommand_indexHi (v : Word) (s : State) : (placeCommand v s).indexHi = s.indexHi := rfl
@[simp] theorem placeCommand_srcAddr (v : Word) (s : State) : (placeCommand v s).srcAddr = s.srcAddr := rfl
@[simp] theorem placeCommand_dstAddr (v : Word) (s : State) : (placeCommand v s).dstAddr = s.dstAddr := rfl
@[simp] theorem placeCommand_srcLen (v : Word) (s : State) : (placeCommand v s).srcLen = s.srcLen := rfl
@[simp] theorem placeCommand_dstLen (v : Word) (s : State) : (placeCommand v s).dstLen = s.dstLen := rfl
@[simp] theorem placeCommand_cmd (v : Word) (s : State) : (placeCommand v s).cmd = v := rfl
@[simp] theorem placeCommand_ks (v : Word) (s : State) : (placeCommand v s).ks = s.ks := rfl
@[simp] theorem placeCommand_busy (v : Word) (s : State) : (placeCommand v s).busy = true := rfl
@[simp] theorem placeCommand_done (v : Word) (s : State) : (placeCommand v s).done = false := rfl
@[simp] theorem placeCommand_werr (v : Word) (s : State) : (placeCommand v s).werr = s.werr := rfl
@[simp] theorem placeCommand_fault (v : Word) (s : State) : (placeCommand v s).fault = s.fault := rfl
@[simp] theorem placeCommand_err (v : Word) (s : State) : (placeCommand v s).err = .none := rfl
@[simp] theorem placeCommand_pend (v : Word) (s : State) : (placeCommand v s).pend = v := rfl
@[simp] theorem placeCommand_arrays (v : Word) (s : State) : (placeCommand v s).arrays = s.arrays := rfl
@[simp] theorem placeCommand_mem (v : Word) (s : State) : (placeCommand v s).mem = s.mem := rfl
@[simp] theorem placeCommand_platform (v : Word) (s : State) : (placeCommand v s).platform = s.platform := rfl
@[simp] theorem placeCommand_draws (v : Word) (s : State) : (placeCommand v s).draws = s.draws := rfl
@[simp] theorem placeCommand_delay (v : Word) (s : State) : (placeCommand v s).delay = 0 := rfl
@[simp] theorem placeCommand_schedule (v : Word) (s : State) : (placeCommand v s).schedule = s.schedule := rfl
@[simp] theorem placeCommand_host (v : Word) (s : State) : (placeCommand v s).host = s.host := rfl
@[simp] theorem placeCommand_listing (v : Word) (s : State) : (placeCommand v s).listing = s.listing := rfl

/-! ### busFault -/

@[simp] theorem busFault_skey (need : Nat) (s : State) : (busFault need s).skey = s.skey := rfl
@[simp] theorem busFault_snonce (need : Nat) (s : State) : (busFault need s).snonce = s.snonce := rfl
@[simp] theorem busFault_sess (need : Nat) (s : State) : (busFault need s).sess = s.sess := rfl
@[simp] theorem busFault_exh (need : Nat) (s : State) : (busFault need s).exh = decide (2 ^ 64 ≤ (Config.freeCounter s.draws).val) := rfl
@[simp] theorem busFault_ctr (need : Nat) (s : State) : (busFault need s).ctr = BitVec.ofNat 64 (Config.freeCounter s.draws).val := rfl
@[simp] theorem busFault_key (need : Nat) (s : State) : (busFault need s).key = s.key := rfl
@[simp] theorem busFault_nonce (need : Nat) (s : State) : (busFault need s).nonce = s.nonce := rfl
@[simp] theorem busFault_wrmask (need : Nat) (s : State) : (busFault need s).wrmask = s.wrmask := rfl
@[simp] theorem busFault_indexLo (need : Nat) (s : State) : (busFault need s).indexLo = s.indexLo := rfl
@[simp] theorem busFault_indexHi (need : Nat) (s : State) : (busFault need s).indexHi = s.indexHi := rfl
@[simp] theorem busFault_srcAddr (need : Nat) (s : State) : (busFault need s).srcAddr = s.srcAddr := rfl
@[simp] theorem busFault_dstAddr (need : Nat) (s : State) : (busFault need s).dstAddr = s.dstAddr := rfl
@[simp] theorem busFault_srcLen (need : Nat) (s : State) : (busFault need s).srcLen = s.srcLen := rfl
@[simp] theorem busFault_dstLen (need : Nat) (s : State) : (busFault need s).dstLen = s.dstLen := rfl
@[simp] theorem busFault_cmd (need : Nat) (s : State) : (busFault need s).cmd = s.cmd := rfl
@[simp] theorem busFault_ks (need : Nat) (s : State) : (busFault need s).ks = s.ks := rfl
@[simp] theorem busFault_busy (need : Nat) (s : State) : (busFault need s).busy = false := rfl
@[simp] theorem busFault_done (need : Nat) (s : State) : (busFault need s).done = true := rfl
@[simp] theorem busFault_werr (need : Nat) (s : State) : (busFault need s).werr = s.werr := rfl
@[simp] theorem busFault_fault (need : Nat) (s : State) : (busFault need s).fault = true := rfl
@[simp] theorem busFault_err (need : Nat) (s : State) : (busFault need s).err = .bus := rfl
@[simp] theorem busFault_pend (need : Nat) (s : State) : (busFault need s).pend = s.pend := rfl
@[simp] theorem busFault_arrays (need : Nat) (s : State) : (busFault need s).arrays = none := rfl
@[simp] theorem busFault_mem (need : Nat) (s : State) : (busFault need s).mem = memScramble s.draws s.dstAddr.toNat need s.mem := rfl
@[simp] theorem busFault_platform (need : Nat) (s : State) : (busFault need s).platform = s.platform := rfl
@[simp] theorem busFault_draws (need : Nat) (s : State) : (busFault need s).draws = s.draws + 1 := rfl
@[simp] theorem busFault_delay (need : Nat) (s : State) : (busFault need s).delay = s.delay := rfl
@[simp] theorem busFault_schedule (need : Nat) (s : State) : (busFault need s).schedule = s.schedule := rfl
@[simp] theorem busFault_host (need : Nat) (s : State) : (busFault need s).host = s.host := rfl
@[simp] theorem busFault_listing (need : Nat) (s : State) : (busFault need s).listing = s.listing := rfl

/-! ### resetBlock -/

@[simp] theorem resetBlock_skey (s : State) : (resetBlock s).skey = State.reset.skey := rfl
@[simp] theorem resetBlock_snonce (s : State) : (resetBlock s).snonce = State.reset.snonce := rfl
@[simp] theorem resetBlock_sess (s : State) : (resetBlock s).sess = State.reset.sess := rfl
@[simp] theorem resetBlock_exh (s : State) : (resetBlock s).exh = State.reset.exh := rfl
@[simp] theorem resetBlock_ctr (s : State) : (resetBlock s).ctr = State.reset.ctr := rfl
@[simp] theorem resetBlock_key (s : State) : (resetBlock s).key = State.reset.key := rfl
@[simp] theorem resetBlock_nonce (s : State) : (resetBlock s).nonce = State.reset.nonce := rfl
@[simp] theorem resetBlock_wrmask (s : State) : (resetBlock s).wrmask = State.reset.wrmask := rfl
@[simp] theorem resetBlock_indexLo (s : State) : (resetBlock s).indexLo = State.reset.indexLo := rfl
@[simp] theorem resetBlock_indexHi (s : State) : (resetBlock s).indexHi = State.reset.indexHi := rfl
@[simp] theorem resetBlock_srcAddr (s : State) : (resetBlock s).srcAddr = State.reset.srcAddr := rfl
@[simp] theorem resetBlock_dstAddr (s : State) : (resetBlock s).dstAddr = State.reset.dstAddr := rfl
@[simp] theorem resetBlock_srcLen (s : State) : (resetBlock s).srcLen = State.reset.srcLen := rfl
@[simp] theorem resetBlock_dstLen (s : State) : (resetBlock s).dstLen = State.reset.dstLen := rfl
@[simp] theorem resetBlock_cmd (s : State) : (resetBlock s).cmd = State.reset.cmd := rfl
@[simp] theorem resetBlock_ks (s : State) : (resetBlock s).ks = State.reset.ks := rfl
@[simp] theorem resetBlock_busy (s : State) : (resetBlock s).busy = State.reset.busy := rfl
@[simp] theorem resetBlock_done (s : State) : (resetBlock s).done = State.reset.done := rfl
@[simp] theorem resetBlock_werr (s : State) : (resetBlock s).werr = State.reset.werr := rfl
@[simp] theorem resetBlock_fault (s : State) : (resetBlock s).fault = State.reset.fault := rfl
@[simp] theorem resetBlock_err (s : State) : (resetBlock s).err = State.reset.err := rfl
@[simp] theorem resetBlock_pend (s : State) : (resetBlock s).pend = State.reset.pend := rfl
@[simp] theorem resetBlock_arrays (s : State) : (resetBlock s).arrays = State.reset.arrays := rfl
@[simp] theorem resetBlock_mem (s : State) : (resetBlock s).mem = memAfterReset s := rfl
@[simp] theorem resetBlock_platform (s : State) : (resetBlock s).platform = s.platform := rfl
@[simp] theorem resetBlock_draws (s : State) : (resetBlock s).draws = s.draws + 1 := rfl
@[simp] theorem resetBlock_delay (s : State) : (resetBlock s).delay = State.reset.delay := rfl
@[simp] theorem resetBlock_schedule (s : State) : (resetBlock s).schedule = s.schedule := rfl
@[simp] theorem resetBlock_host (s : State) : (resetBlock s).host = s.host := rfl
@[simp] theorem resetBlock_listing (s : State) : (resetBlock s).listing = s.listing := rfl

/-! ### takeDelay and acceptCommand: only the model's own fields depend on the schedule -/

@[simp] theorem takeDelay_skey (s : State) : (takeDelay s).skey = s.skey := by unfold takeDelay; split <;> rfl
@[simp] theorem takeDelay_snonce (s : State) : (takeDelay s).snonce = s.snonce := by unfold takeDelay; split <;> rfl
@[simp] theorem takeDelay_sess (s : State) : (takeDelay s).sess = s.sess := by unfold takeDelay; split <;> rfl
@[simp] theorem takeDelay_exh (s : State) : (takeDelay s).exh = s.exh := by unfold takeDelay; split <;> rfl
@[simp] theorem takeDelay_ctr (s : State) : (takeDelay s).ctr = s.ctr := by unfold takeDelay; split <;> rfl
@[simp] theorem takeDelay_key (s : State) : (takeDelay s).key = s.key := by unfold takeDelay; split <;> rfl
@[simp] theorem takeDelay_nonce (s : State) : (takeDelay s).nonce = s.nonce := by unfold takeDelay; split <;> rfl
@[simp] theorem takeDelay_wrmask (s : State) : (takeDelay s).wrmask = s.wrmask := by unfold takeDelay; split <;> rfl
@[simp] theorem takeDelay_indexLo (s : State) : (takeDelay s).indexLo = s.indexLo := by unfold takeDelay; split <;> rfl
@[simp] theorem takeDelay_indexHi (s : State) : (takeDelay s).indexHi = s.indexHi := by unfold takeDelay; split <;> rfl
@[simp] theorem takeDelay_srcAddr (s : State) : (takeDelay s).srcAddr = s.srcAddr := by unfold takeDelay; split <;> rfl
@[simp] theorem takeDelay_dstAddr (s : State) : (takeDelay s).dstAddr = s.dstAddr := by unfold takeDelay; split <;> rfl
@[simp] theorem takeDelay_srcLen (s : State) : (takeDelay s).srcLen = s.srcLen := by unfold takeDelay; split <;> rfl
@[simp] theorem takeDelay_dstLen (s : State) : (takeDelay s).dstLen = s.dstLen := by unfold takeDelay; split <;> rfl
@[simp] theorem takeDelay_cmd (s : State) : (takeDelay s).cmd = s.cmd := by unfold takeDelay; split <;> rfl
@[simp] theorem takeDelay_ks (s : State) : (takeDelay s).ks = s.ks := by unfold takeDelay; split <;> rfl
@[simp] theorem takeDelay_busy (s : State) : (takeDelay s).busy = s.busy := by unfold takeDelay; split <;> rfl
@[simp] theorem takeDelay_done (s : State) : (takeDelay s).done = s.done := by unfold takeDelay; split <;> rfl
@[simp] theorem takeDelay_werr (s : State) : (takeDelay s).werr = s.werr := by unfold takeDelay; split <;> rfl
@[simp] theorem takeDelay_fault (s : State) : (takeDelay s).fault = s.fault := by unfold takeDelay; split <;> rfl
@[simp] theorem takeDelay_err (s : State) : (takeDelay s).err = s.err := by unfold takeDelay; split <;> rfl
@[simp] theorem takeDelay_pend (s : State) : (takeDelay s).pend = s.pend := by unfold takeDelay; split <;> rfl
@[simp] theorem takeDelay_arrays (s : State) : (takeDelay s).arrays = s.arrays := by unfold takeDelay; split <;> rfl
@[simp] theorem takeDelay_mem (s : State) : (takeDelay s).mem = s.mem := by unfold takeDelay; split <;> rfl
@[simp] theorem takeDelay_platform (s : State) : (takeDelay s).platform = s.platform := by unfold takeDelay; split <;> rfl
@[simp] theorem takeDelay_host (s : State) : (takeDelay s).host = s.host := by unfold takeDelay; split <;> rfl
@[simp] theorem takeDelay_listing (s : State) : (takeDelay s).listing = s.listing := by unfold takeDelay; split <;> rfl

@[simp] theorem acceptCommand_skey (v : Word) (s : State) : (acceptCommand v s).skey = s.skey := by simp [acceptCommand]
@[simp] theorem acceptCommand_snonce (v : Word) (s : State) : (acceptCommand v s).snonce = s.snonce := by simp [acceptCommand]
@[simp] theorem acceptCommand_sess (v : Word) (s : State) : (acceptCommand v s).sess = s.sess := by simp [acceptCommand]
@[simp] theorem acceptCommand_exh (v : Word) (s : State) : (acceptCommand v s).exh = s.exh := by simp [acceptCommand]
@[simp] theorem acceptCommand_ctr (v : Word) (s : State) : (acceptCommand v s).ctr = s.ctr := by simp [acceptCommand]
@[simp] theorem acceptCommand_key (v : Word) (s : State) : (acceptCommand v s).key = s.key := by simp [acceptCommand]
@[simp] theorem acceptCommand_nonce (v : Word) (s : State) : (acceptCommand v s).nonce = s.nonce := by simp [acceptCommand]
@[simp] theorem acceptCommand_wrmask (v : Word) (s : State) : (acceptCommand v s).wrmask = s.wrmask := by simp [acceptCommand]
@[simp] theorem acceptCommand_indexLo (v : Word) (s : State) : (acceptCommand v s).indexLo = s.indexLo := by simp [acceptCommand]
@[simp] theorem acceptCommand_indexHi (v : Word) (s : State) : (acceptCommand v s).indexHi = s.indexHi := by simp [acceptCommand]
@[simp] theorem acceptCommand_srcAddr (v : Word) (s : State) : (acceptCommand v s).srcAddr = s.srcAddr := by simp [acceptCommand]
@[simp] theorem acceptCommand_dstAddr (v : Word) (s : State) : (acceptCommand v s).dstAddr = s.dstAddr := by simp [acceptCommand]
@[simp] theorem acceptCommand_srcLen (v : Word) (s : State) : (acceptCommand v s).srcLen = s.srcLen := by simp [acceptCommand]
@[simp] theorem acceptCommand_dstLen (v : Word) (s : State) : (acceptCommand v s).dstLen = s.dstLen := by simp [acceptCommand]
@[simp] theorem acceptCommand_cmd (v : Word) (s : State) : (acceptCommand v s).cmd = v := by simp [acceptCommand]
@[simp] theorem acceptCommand_ks (v : Word) (s : State) : (acceptCommand v s).ks = s.ks := by simp [acceptCommand]
@[simp] theorem acceptCommand_busy (v : Word) (s : State) : (acceptCommand v s).busy = true := by simp [acceptCommand]
@[simp] theorem acceptCommand_done (v : Word) (s : State) : (acceptCommand v s).done = false := by simp [acceptCommand]
@[simp] theorem acceptCommand_werr (v : Word) (s : State) : (acceptCommand v s).werr = s.werr := by simp [acceptCommand]
@[simp] theorem acceptCommand_fault (v : Word) (s : State) : (acceptCommand v s).fault = s.fault := by simp [acceptCommand]
@[simp] theorem acceptCommand_err (v : Word) (s : State) : (acceptCommand v s).err = .none := by simp [acceptCommand]
@[simp] theorem acceptCommand_pend (v : Word) (s : State) : (acceptCommand v s).pend = v := by simp [acceptCommand]
@[simp] theorem acceptCommand_arrays (v : Word) (s : State) : (acceptCommand v s).arrays = s.arrays := by simp [acceptCommand]
@[simp] theorem acceptCommand_mem (v : Word) (s : State) : (acceptCommand v s).mem = s.mem := by simp [acceptCommand]
@[simp] theorem acceptCommand_platform (v : Word) (s : State) : (acceptCommand v s).platform = s.platform := by simp [acceptCommand]
@[simp] theorem acceptCommand_host (v : Word) (s : State) : (acceptCommand v s).host = s.host := by simp [acceptCommand]
@[simp] theorem acceptCommand_listing (v : Word) (s : State) : (acceptCommand v s).listing = s.listing := by simp [acceptCommand]

/-! ### The counter -/

@[simp] theorem counter_complete (e : ErrorCode) (s : State) : counter (complete e s) = counter s := rfl

/-- The counter as a number: EXH counts 2^64 (10_state R25). -/
theorem counter_eq (s : State) : counter s = (if s.exh = true then 2 ^ 64 else 0) + s.ctr.toNat := by
  have hlt := s.ctr.isLt
  unfold counter
  rw [BitVec.toNat_append, Nat.shiftLeft_eq, Nat.mul_comm, ← Nat.two_pow_add_eq_or_of_lt hlt]
  cases s.exh <;> simp

theorem counter_setCounter (c : Nat) (s : State) (h : c ≤ 2 ^ 64) : counter (setCounter c s) = c := by
  rw [counter_eq, setCounter_exh, setCounter_ctr, BitVec.toNat_ofNat]
  rcases Nat.lt_or_ge c (2 ^ 64) with hlt | hge
  · rw [decide_eq_false (by omega), Nat.mod_eq_of_lt hlt]; simp
  · have hc : c = 2 ^ 64 := by omega
    subst hc; decide

/-- The counter's legal form follows any assignment up to the ceiling (10_state R25). -/
theorem setCounter_legal (c : Nat) (s : State) (h : c ≤ 2 ^ 64) :
    (setCounter c s).exh = true → (setCounter c s).ctr = 0 := by
  rw [setCounter_exh, setCounter_ctr, decide_eq_true_iff]
  intro hc
  have : c = 2 ^ 64 := by omega
  subst this; decide

end Sys2Proof.Machine
end

