-- ==== Sys2Proof/Laws/Stream.lean ====
section
/-! SUPPORT. The shared operations of PROCESS_BLOCKS and PROCESS_BYTES: when the checks pass, what the byte and block loops
answer and what they leave alone, so that no later proof unfolds a loop. -/

namespace Sys2Proof.Machine

/-! ### The checks -/

/-- The shared checks pass exactly under the conditions of 41_commands R150 and R151. -/
theorem streamCheck_eq_none (need blocks : Nat) (s : State) :
    streamCheck need blocks s = none ↔
      need ≤ s.srcLen.toNat ∧ need ≤ s.dstLen.toNat
        ∧ rangeOK s.srcAddr.toNat need = true ∧ rangeOK s.dstAddr.toNat need = true
        ∧ buffersOK s.srcAddr.toNat s.dstAddr.toNat need = true
        ∧ counter s + blocks ≤ counterCeiling := by
  unfold streamCheck
  constructor
  · intro h
    split at h
    · cases h
    · split at h
      · cases h
      · split at h
        · cases h
        · split at h
          · cases h
          · simp_all
  · rintro ⟨h1, h2, h3, h4, h5, h6⟩
    simp [h3, h4, h5, Nat.not_lt.2 h1, Nat.not_lt.2 h2, Nat.not_lt.2 h6]

/-- The error the shared checks raise is never E_NONE or E_BUS. -/
theorem streamCheck_some (need blocks : Nat) (s : State) (e : ErrorCode) (h : streamCheck need blocks s = some e) :
    e = .bufSize ∨ e = .range ∨ e = .overlap ∨ e = .ctrExhausted := by
  unfold streamCheck at h
  split at h
  · simp_all
  · split at h
    · simp_all
    · split at h
      · simp_all
      · split at h
        · simp_all
        · cases h

/-! ### The byte loop -/

@[simp] theorem arraysBytes_runBlock (idx : BitVec 64) (s : State) :
    arraysBytes (runBlock idx s) = (block s.skey s.snonce idx).toList := rfl

/-- The byte loop changes memory and nothing else. -/
theorem xorBytes_frame (ks : List Byte) (src dst : Nat) (s t : State) (h : xorBytes ks src dst s = some t) :
    t = { s with mem := t.mem } := by
  induction ks generalizing src dst s with
  | nil => cases h; rfl
  | cons k ks ih =>
    simp only [xorBytes] at h
    split at h
    · have := ih _ _ _ h
      rw [this]
    · cases h

/-- The byte loop ends well exactly when every access is admitted (20_memory R62). -/
theorem xorBytes_isSome (ks : List Byte) (src dst : Nat) (s : State) :
    (xorBytes ks src dst s).isSome = true ↔
      ∀ p, p < ks.length → admits s .read (src + p) = true ∧ admits s .write (dst + p) = true := by
  induction ks generalizing src dst s with
  | nil => simp [xorBytes]
  | cons k ks ih =>
    simp only [xorBytes, List.length_cons]
    constructor
    · intro h
      split at h
      · rename_i hadm
        rw [Bool.and_eq_true] at hadm
        intro p hp
        cases p with
        | zero => simpa using hadm
        | succ p =>
          have := (ih _ _ _).1 h p (by omega)
          simpa [admits, Nat.add_assoc, Nat.add_comm 1 p] using this
      · cases h
    · intro h
      have h0 := h 0 (by omega)
      simp only [Nat.add_zero] at h0
      rw [if_pos (by rw [h0.1, h0.2]; rfl)]
      refine (ih _ _ _).2 fun p hp => ?_
      have := h (p + 1) (by omega)
      simpa [admits, Nat.add_assoc, Nat.add_comm 1 p] using this

/-- The byte loop keeps memory canonical inside the address space. -/
theorem xorBytes_wf (ks : List Byte) (src dst : Nat) (s t : State) (hd : dst + ks.length ≤ memLimit)
    (hm : memWf s.mem = true) (h : xorBytes ks src dst s = some t) : memWf t.mem = true := by
  induction ks generalizing src dst s with
  | nil => cases h; exact hm
  | cons k ks ih =>
    simp only [xorBytes] at h
    simp only [List.length_cons] at hd
    split at h
    · exact ih _ _ _ (by omega) (memWrite_wf _ _ _ (by omega) hm) h
    · cases h

/-- The byte loop leaves every byte outside its destination alone. -/
theorem xorBytes_other (ks : List Byte) (src dst : Nat) (s t : State) (a : Nat)
    (ha : ¬ (dst ≤ a ∧ a < dst + ks.length)) (h : xorBytes ks src dst s = some t) :
    memRead t.mem a = memRead s.mem a := by
  induction ks generalizing src dst s with
  | nil => cases h; rfl
  | cons k ks ih =>
    simp only [xorBytes] at h
    simp only [List.length_cons] at ha
    split at h
    · rw [ih _ _ _ (by omega) h]
      exact memRead_memWrite_other _ _ _ _ (by omega)
    · cases h

/-- The byte loop XORs each keystream byte onto its source byte, where the ranges are in place or disjoint. -/
theorem xorBytes_inside (ks : List Byte) (src dst : Nat) (s t : State) (hm : memWf s.mem = true)
    (hd : dst + ks.length ≤ memLimit)
    (hb : src = dst ∨ src + ks.length ≤ dst ∨ dst + ks.length ≤ src)
    (h : xorBytes ks src dst s = some t) (p : Nat) (hp : p < ks.length) :
    memRead t.mem (dst + p) = memRead s.mem (src + p) ^^^ ks[p] := by
  induction ks generalizing src dst s p with
  | nil => simp at hp
  | cons k ks ih =>
    simp only [xorBytes] at h
    simp only [List.length_cons] at hd hb hp
    split at h
    · have hm' := memWrite_wf s.mem dst (memRead s.mem src ^^^ k) (by omega) hm
      cases p with
      | zero =>
        have hout := xorBytes_other ks (src + 1) (dst + 1) _ t dst (by omega) h
        simp only [Nat.add_zero, List.getElem_cons_zero]
        rw [hout]
        exact memRead_memWrite_same _ _ _ hm
      | succ p =>
        have := ih (src + 1) (dst + 1) _ hm' (by omega) (by omega) h p (by omega)
        rw [show dst + (p + 1) = dst + 1 + p by omega, this, List.getElem_cons_succ]
        have hne : src + 1 + p ≠ dst := by omega
        rw [memRead_memWrite_other _ _ _ _ hne, show src + (p + 1) = src + 1 + p by omega]
    · cases h

/-! ### The block loop -/

/-- One turn of the block loop. -/
theorem xorBlocks_succ (n c src dst : Nat) (s t : State) (h : xorBlocks (n + 1) c src dst s = some t) :
    ∃ u, xorBytes (block s.skey s.snonce (indexOfCounter c)).toList src dst (runBlock (indexOfCounter c) s) = some u
      ∧ xorBlocks n (c + 1) (src + blockBytes) (dst + blockBytes) u = some t := by
  simp only [xorBlocks, arraysBytes_runBlock] at h
  split at h
  · cases h
  · rename_i u hu
    exact ⟨u, hu, h⟩

/-- The block loop changes memory and the engine's arrays and nothing else. -/
theorem xorBlocks_frame (n c src dst : Nat) (s t : State) (h : xorBlocks n c src dst s = some t) :
    t = { s with mem := t.mem, arrays := t.arrays } := by
  induction n generalizing c src dst s with
  | zero => cases h; rfl
  | succ n ih =>
    obtain ⟨u, hu, ht⟩ := xorBlocks_succ n c src dst s t h
    have h1 := xorBytes_frame _ _ _ _ _ hu
    have h2 := ih _ _ _ _ ht
    rw [h2, h1]
    simp only [runBlock]

/-- The block loop ends well exactly when every access is admitted (20_memory R62). -/
theorem xorBlocks_isSome (n c src dst : Nat) (s : State) :
    (xorBlocks n c src dst s).isSome = true ↔
      ∀ p, p < blockBytes * n → admits s .read (src + p) = true ∧ admits s .write (dst + p) = true := by
  induction n generalizing c src dst s with
  | zero => simp [xorBlocks]
  | succ n ih =>
    have hlen : (block s.skey s.snonce (indexOfCounter c)).toList.length = blockBytes := by simp [blockBytes]
    have hone := xorBytes_isSome (block s.skey s.snonce (indexOfCounter c)).toList src dst
      (runBlock (indexOfCounter c) s)
    rw [hlen] at hone
    simp only [xorBlocks, arraysBytes_runBlock]
    split
    · rename_i hnone
      rw [hnone] at hone
      simp only [Option.isSome_none, Bool.false_eq_true, false_iff] at hone ⊢
      exact fun hall => hone fun p hp => hall p (by simp only [blockBytes] at hp ⊢; omega)
    · rename_i u hu
      rw [hu] at hone
      simp only [Option.isSome_some, true_iff] at hone
      have hfr := xorBytes_frame _ _ _ _ _ hu
      have hadm : ∀ k a, admits u k a = admits s k a := fun k a => by rw [hfr]; rfl
      rw [ih]
      constructor
      · intro hrest p hp
        rcases Nat.lt_or_ge p blockBytes with hlt | hge
        · exact hone p hlt
        · have := hrest (p - blockBytes) (by simp only [blockBytes] at hp hge ⊢; omega)
          rw [hadm, hadm, Nat.add_assoc, Nat.add_assoc, Nat.add_sub_cancel' hge] at this
          exact this
      · intro hall p hp
        rw [hadm, hadm, Nat.add_assoc, Nat.add_assoc]
        exact hall (blockBytes + p) (by simp only [blockBytes] at hp ⊢; omega)

/-- The block loop keeps memory canonical inside the address space. -/
theorem xorBlocks_wf (n c src dst : Nat) (s t : State) (hd : dst + blockBytes * n ≤ memLimit)
    (hm : memWf s.mem = true) (h : xorBlocks n c src dst s = some t) : memWf t.mem = true := by
  induction n generalizing c src dst s with
  | zero => cases h; exact hm
  | succ n ih =>
    obtain ⟨u, hu, ht⟩ := xorBlocks_succ n c src dst s t h
    simp only [blockBytes] at hd
    refine ih _ _ _ u (by simp only [blockBytes]; omega) ?_ ht
    exact xorBytes_wf _ _ _ (runBlock (indexOfCounter c) s) u (by simp; omega) hm hu

/-- The block loop leaves every byte outside its destination alone. -/
theorem xorBlocks_other (n c src dst : Nat) (s t : State) (a : Nat)
    (ha : ¬ (dst ≤ a ∧ a < dst + blockBytes * n)) (h : xorBlocks n c src dst s = some t) :
    memRead t.mem a = memRead s.mem a := by
  induction n generalizing c src dst s with
  | zero => cases h; rfl
  | succ n ih =>
    obtain ⟨u, hu, ht⟩ := xorBlocks_succ n c src dst s t h
    simp only [blockBytes] at ha ih
    rw [ih _ _ _ u (by simp only [blockBytes]; omega) ht]
    have := xorBytes_other _ _ _ _ u a (by simp; omega) hu
    simpa using this

/-- The block loop XORs byte p mod 64 of block c + p / 64 onto source byte p (41_commands R152). -/
theorem xorBlocks_inside (n c src dst : Nat) (s t : State) (hm : memWf s.mem = true)
    (hd : dst + blockBytes * n ≤ memLimit)
    (hb : src = dst ∨ src + blockBytes * n ≤ dst ∨ dst + blockBytes * n ≤ src)
    (h : xorBlocks n c src dst s = some t) (p : Nat) (hp : p < blockBytes * n) :
    memRead t.mem (dst + p) = memRead s.mem (src + p)
      ^^^ (block s.skey s.snonce (indexOfCounter (c + p / 64)))[p % 64]'(Nat.mod_lt p (by decide)) := by
  induction n generalizing c src dst s p with
  | zero => simp at hp
  | succ n ih =>
    obtain ⟨u, hu, ht⟩ := xorBlocks_succ n c src dst s t h
    simp only [blockBytes] at hd hb hp ht ih
    have hfr := xorBytes_frame _ _ _ _ _ hu
    have hwf : memWf u.mem = true :=
      xorBytes_wf _ _ _ (runBlock (indexOfCounter c) s) u (by simp; omega) hm hu
    rcases Nat.lt_or_ge p 64 with hlt | hge
    · have hout := xorBlocks_other n (c + 1) (src + 64) (dst + 64) u t (dst + p)
        (by simp only [blockBytes]; omega) ht
      have hin := xorBytes_inside _ src dst (runBlock (indexOfCounter c) s) u hm (by simp; omega)
        (by simp; omega) hu p (by simpa using hlt)
      rw [hout, hin]
      have hdiv : p / 64 = 0 := by omega
      have hmod : p % 64 = p := by omega
      simp only [hdiv, hmod, Nat.add_zero, Vector.getElem_toList, runBlock_mem]
    · have hrec := ih (c + 1) (src + 64) (dst + 64) u hwf (by omega) (by omega) ht (p - 64) (by omega)
      have hkey : u.skey = s.skey := by rw [hfr]; rfl
      have hnonce : u.snonce = s.snonce := by rw [hfr]; rfl
      have hdiv : c + 1 + (p - 64) / 64 = c + p / 64 := by omega
      have hmod : (p - 64) % 64 = p % 64 := by omega
      rw [show dst + 64 + (p - 64) = dst + p by omega, show src + 64 + (p - 64) = src + p by omega] at hrec
      rw [hrec]
      have hsrc := xorBytes_other _ src dst (runBlock (indexOfCounter c) s) u (src + p) (by simp; omega) hu
      rw [hsrc]
      simp only [hkey, hnonce, hdiv, hmod, runBlock_mem]

/-! ### The end of a transfer -/

/-- A PROCESS_* command past its checks ends with E_BUS or with the counter moved. -/
theorem finishStream_next (need blocks : Nat) (s : State) (r : Option State) :
    (r = none ∧ finishStream need blocks s r = .next (busFault need s))
      ∨ ∃ t, r = some t ∧ finishStream need blocks s r = .next (complete .none (setCounter (counter s + blocks) t)) := by
  cases r with
  | none => exact .inl ⟨rfl, rfl⟩
  | some t => exact .inr ⟨t, rfl, rfl⟩

end Sys2Proof.Machine
end

