-- ==== Sys2Proof/Laws/Step.lean ====
section
/-! SUPPORT. What a step can do, said once: which agent moves, what the engine's step is, what the host's step is. -/

namespace Sys2Proof.Machine

/-- The engine's turn, as propositions. -/
theorem engineTurn_iff (s : State) : engineTurn s = true ↔ s.busy = true ∧ (s.host = [] ∨ s.delay = 0) := by
  simp [engineTurn]

/-- A step is the engine's, the host's next access, or none. -/
theorem step_cases (s : State) :
    (engineTurn s = true ∧ step s = engineStep s)
      ∨ (engineTurn s = false ∧ s.host = [] ∧ step s = .next s)
      ∨ ∃ a rest, engineTurn s = false ∧ s.host = a :: rest
          ∧ step s = hostAct a { s with host := rest, delay := s.delay - 1 } := by
  unfold step machineStep
  cases ht : engineTurn s with
  | true => exact .inl ⟨rfl, rfl⟩
  | false =>
    cases hh : s.host with
    | nil => exact .inr (.inl ⟨rfl, rfl, rfl⟩)
    | cons a rest => exact .inr (.inr ⟨a, rest, rfl, rfl, rfl⟩)

/-- Without the engine's turn and without a command in flight the idle host means an idle machine. -/
theorem engineTurn_of_idle (s : State) (h : s.busy = false) : engineTurn s = false := by simp [engineTurn, h]

/-- The engine's step is a command's meaning or ILLEGAL's. -/
theorem engineStep_cases (s : State) :
    (∃ i, decode s.pend = .command i ∧ engineStep s = exec i s)
      ∨ ∃ why, decode s.pend = .illegal why ∧ engineStep s = .next (complete .illegal s) := by
  unfold engineStep
  cases h : decode s.pend with
  | command i => exact .inl ⟨i, rfl, rfl⟩
  | illegal why => exact .inr ⟨why, rfl, rfl⟩

/-- PROCESS_BLOCKS raises, ends with E_BUS, or moves the counter by `n`. -/
theorem execProcessBlocks_cases (n : Nat) (s : State) :
    (s.sess = false ∧ execProcessBlocks n s = .next (complete .noSession s))
      ∨ (∃ e, s.sess = true ∧ streamCheck (blockBytes * n) n s = some e
          ∧ execProcessBlocks n s = .next (complete e s))
      ∨ (s.sess = true ∧ streamCheck (blockBytes * n) n s = none
          ∧ xorBlocks n (counter s) s.srcAddr.toNat s.dstAddr.toNat s = none
          ∧ execProcessBlocks n s = .next (busFault (blockBytes * n) s))
      ∨ ∃ t, s.sess = true ∧ streamCheck (blockBytes * n) n s = none
          ∧ xorBlocks n (counter s) s.srcAddr.toNat s.dstAddr.toNat s = some t
          ∧ execProcessBlocks n s = .next (complete .none (setCounter (counter s + n) t)) := by
  unfold execProcessBlocks
  by_cases hs : s.sess = true
  · rw [if_neg (by simp [hs])]
    cases hc : streamCheck (blockBytes * n) n s with
    | some e => exact .inr (.inl ⟨e, hs, rfl, rfl⟩)
    | none =>
      cases hx : xorBlocks n (counter s) s.srcAddr.toNat s.dstAddr.toNat s with
      | none => exact .inr (.inr (.inl ⟨hs, rfl, rfl, rfl⟩))
      | some t => exact .inr (.inr (.inr ⟨t, hs, rfl, rfl, rfl⟩))
  · exact .inl ⟨Bool.eq_false_iff.2 hs, by rw [if_pos (by simp [hs])]; rfl⟩

/-- PROCESS_BYTES raises, ends with E_BUS, or moves the counter by 1. -/
theorem execProcessBytes_cases (length : Nat) (s : State) :
    (s.sess = false ∧ execProcessBytes length s = .next (complete .noSession s))
      ∨ (s.sess = true ∧ maxPartial < length ∧ execProcessBytes length s = .next (complete .length s))
      ∨ (∃ e, s.sess = true ∧ length ≤ maxPartial ∧ streamCheck length 1 s = some e
          ∧ execProcessBytes length s = .next (complete e s))
      ∨ (s.sess = true ∧ length ≤ maxPartial ∧ streamCheck length 1 s = none
          ∧ xorBytes ((block s.skey s.snonce (indexOfCounter (counter s))).toList.take length) s.srcAddr.toNat
              s.dstAddr.toNat (runBlock (indexOfCounter (counter s)) s) = none
          ∧ execProcessBytes length s = .next (busFault length s))
      ∨ ∃ t, s.sess = true ∧ length ≤ maxPartial ∧ streamCheck length 1 s = none
          ∧ xorBytes ((block s.skey s.snonce (indexOfCounter (counter s))).toList.take length) s.srcAddr.toNat
              s.dstAddr.toNat (runBlock (indexOfCounter (counter s)) s) = some t
          ∧ execProcessBytes length s = .next (complete .none (setCounter (counter s + 1) t)) := by
  unfold execProcessBytes
  by_cases hs : s.sess = true
  · rw [if_neg (by simp [hs])]
    by_cases hl : maxPartial < length
    · exact .inr (.inl ⟨hs, hl, by rw [if_pos hl]; rfl⟩)
    · have hle : length ≤ maxPartial := Nat.not_lt.1 hl
      rw [if_neg hl]
      cases hc : streamCheck length 1 s with
      | some e => exact .inr (.inr (.inl ⟨e, hs, hle, rfl, rfl⟩))
      | none =>
        simp only [arraysBytes_runBlock]
        cases hx : xorBytes ((block s.skey s.snonce (indexOfCounter (counter s))).toList.take length)
            s.srcAddr.toNat s.dstAddr.toNat (runBlock (indexOfCounter (counter s)) s) with
        | none => exact .inr (.inr (.inr (.inl ⟨hs, hle, trivial, rfl, rfl⟩)))
        | some t => exact .inr (.inr (.inr (.inr ⟨t, hs, hle, trivial, rfl, rfl⟩)))
  · exact .inl ⟨Bool.eq_false_iff.2 hs, by rw [if_pos (by simp [hs])]; rfl⟩

/-- SESSION_INIT raises E_SIZE or latches. -/
theorem execSessionInit_cases (s : State) :
    (s.wrmask ≠ allStaged ∧ execSessionInit s = .next (complete .size s))
      ∨ (s.wrmask = allStaged ∧ execSessionInit s = .next (complete .none (setCounter 0
          { s with skey := s.key, snonce := s.nonce, sess := true, wrmask := 0, ks := zeroKs }))) := by
  by_cases h : s.wrmask = allStaged
  · exact .inr ⟨h, by simp [execSessionInit, h]⟩
  · exact .inl ⟨h, by simp [execSessionInit, h, raiseError]⟩

/-- SET_NONCE raises E_NOSESSION or E_SIZE, or latches the nonce. -/
theorem execSetNonce_cases (s : State) :
    (s.sess = false ∧ execSetNonce s = .next (complete .noSession s))
      ∨ (s.sess = true ∧ nonceStaged s.wrmask ≠ 0b11 ∧ execSetNonce s = .next (complete .size s))
      ∨ (s.sess = true ∧ nonceStaged s.wrmask = 0b11 ∧ execSetNonce s = .next (complete .none (setCounter 0
          { s with snonce := s.nonce, wrmask := clearNonceStaged s.wrmask, ks := zeroKs }))) := by
  unfold execSetNonce
  by_cases hs : s.sess = true
  · by_cases h : nonceStaged s.wrmask = 0b11
    · exact .inr (.inr ⟨hs, h, by rw [hs, if_neg (by decide), if_neg (not_not_intro h)]⟩)
    · exact .inr (.inl ⟨hs, h, by rw [hs, if_neg (by decide), if_pos h]; rfl⟩)
  · exact .inl ⟨Bool.eq_false_iff.2 hs, by rw [Bool.eq_false_iff.2 hs]; rfl⟩

/-- KEYSTREAM raises E_NOSESSION or writes KS0-KS15. -/
theorem execKeystream_cases (s : State) :
    (s.sess = false ∧ execKeystream s = .next (complete .noSession s))
      ∨ (s.sess = true ∧ execKeystream s
          = .next (complete .none { s with ks := blockWords s.skey s.snonce (blockIndex s) })) := by
  unfold execKeystream
  by_cases hs : s.sess = true
  · exact .inr ⟨hs, by rw [if_neg (by simp [hs])]; rfl⟩
  · exact .inl ⟨Bool.eq_false_iff.2 hs, by rw [Bool.eq_false_iff.2 hs]; rfl⟩

/-- A register write is dropped, accepted as a command, ignored, or a plain write of one register (10_state R39). -/
theorem regWrite_cases (off : Nat) (v : Word) (s : State) :
    ((s.busy = true ∨ s.fault = true) ∧ regWrite off v s = { s with werr := true })
      ∨ (s.busy = false ∧ s.fault = false ∧ ∃ r, regAt off = some r ∧ regWrite off v s = writeReg r v s)
      ∨ (s.busy = false ∧ s.fault = false ∧ regAt off = none ∧ regWrite off v s = s) := by
  by_cases hd : s.busy = true ∨ s.fault = true
  · exact .inl ⟨hd, by unfold regWrite; rw [if_pos (by rcases hd with h | h <;> simp [h])]⟩
  · obtain ⟨hb, hf⟩ := not_or.1 hd
    rw [Bool.not_eq_true] at hb hf
    cases hr : regAt off with
    | none => exact .inr (.inr ⟨hb, hf, rfl, by simp [regWrite, hb, hf, hr]⟩)
    | some r => exact .inr (.inl ⟨hb, hf, r, rfl, by simp [regWrite, hb, hf, hr]⟩)

/-- Every register stands at its own offset (10_state R37). -/
theorem regAt_regOffset (r : Reg) : regAt (regOffset r) = some r := by
  cases r with
  | key i => revert i; decide
  | nonce j => revert j; decide
  | ks i => revert i; decide
  | _ => rfl

end Sys2Proof.Machine
end

