-- ==== Sys2Proof/Laws/Effects.lean ====
section
/-! SUPPORT. What a command, a register write and a host access can do, said once each: every whole-machine rule is a case
analysis over these and never unfolds the step. -/

namespace Sys2Proof.Machine

open Sys2Proof

/-- The next states of `exec i s`: an error entry, the effect of the command, or E_BUS. -/
inductive CommandEffect (i : Instr) (s : State) : State → Prop
  | error (e : ErrorCode) (hnone : e ≠ .none) (hbus : e ≠ .bus) : CommandEffect i s (complete e s)
  | nop (hi : i = .nop) : CommandEffect i s (complete .none s)
  | sessionInit (hi : i = .sessionInit) (hmask : s.wrmask = allStaged) :
      CommandEffect i s (complete .none (setCounter 0
        { s with skey := s.key, snonce := s.nonce, sess := true, wrmask := 0, ks := zeroKs }))
  | setNonce (hi : i = .setNonce) (hsess : s.sess = true) :
      CommandEffect i s (complete .none (setCounter 0
        { s with snonce := s.nonce, wrmask := clearNonceStaged s.wrmask, ks := zeroKs }))
  | keystream (hi : i = .keystream) (hsess : s.sess = true) :
      CommandEffect i s (complete .none { s with ks := blockWords s.skey s.snonce (blockIndex s) })
  | sessionClear (hi : i = .sessionClear) :
      CommandEffect i s (complete .none (setCounter 0
        { s with skey := Vector.replicate 8 0, snonce := Vector.replicate 2 0, sess := false,
                 key := Vector.replicate 8 0, nonce := Vector.replicate 2 0, wrmask := 0, ks := zeroKs }))
  | bus (need : Nat) (hi : streamNeed i = some need) (hsess : s.sess = true) : CommandEffect i s (busFault need s)
  | stream (need blocks : Nat) (u : State)
      (hi : (i = .processBlocks blocks ∧ need = 64 * blocks) ∨ (i = .processBytes need ∧ blocks = 1))
      (hsess : s.sess = true) (hframe : u = { s with mem := u.mem, arrays := u.arrays })
      (hother : ∀ a, ¬ InRange s.dstAddr.toNat need a → memRead u.mem a = memRead s.mem a)
      (hwf : memWf s.mem = true → memWf u.mem = true) (hcounter : counter s + blocks ≤ 2 ^ 64) :
      CommandEffect i s (complete .none (setCounter (counter s + blocks) u))

/-- A transfer that passed its range check and is not empty ends inside the address space. -/
theorem rangeOK_bound (a need : Nat) (h : rangeOK a need = true) : need = 0 ∨ a + need ≤ memLimit := by
  unfold rangeOK at h
  rw [Bool.or_eq_true, decide_eq_true_iff, decide_eq_true_iff] at h
  exact h

/-- PROCESS_BLOCKS: an error, E_BUS or the transfer. -/
theorem execProcessBlocks_effect (n : Nat) (s : State) :
    ∃ t, execProcessBlocks n s = .next t ∧ CommandEffect (.processBlocks n) s t := by
  rcases execProcessBlocks_cases n s with h | ⟨e, h⟩ | h | ⟨t, h⟩
  · exact ⟨_, h.2, .error _ (by decide) (by decide)⟩
  · refine ⟨_, h.2.2, .error e ?_ ?_⟩ <;> rcases streamCheck_some _ _ _ _ h.2.1 with rfl | rfl | rfl | rfl <;> decide
  · exact ⟨_, h.2.2.2, .bus _ rfl h.1⟩
  · have hn := (streamCheck_eq_none _ _ _).1 h.2.1
    refine ⟨_, h.2.2.2, .stream (64 * n) n t (.inl ⟨rfl, rfl⟩) h.1 (xorBlocks_frame _ _ _ _ _ _ h.2.2.1)
      (fun a ha => xorBlocks_other _ _ _ _ _ _ a ha h.2.2.1) (fun hm => ?_) hn.2.2.2.2.2⟩
    rcases rangeOK_bound _ _ hn.2.2.2.1 with hz | hr
    · have hz : n = 0 := by simp only [blockBytes] at hz; omega
      subst hz
      have := h.2.2.1
      cases this
      exact hm
    · exact xorBlocks_wf _ _ _ _ _ _ hr hm h.2.2.1

/-- PROCESS_BYTES: an error, E_BUS or the transfer. -/
theorem execProcessBytes_effect (n : Nat) (s : State) :
    ∃ t, execProcessBytes n s = .next t ∧ CommandEffect (.processBytes n) s t := by
  rcases execProcessBytes_cases n s with h | h | ⟨e, h⟩ | h | ⟨t, h⟩
  · exact ⟨_, h.2, .error _ (by decide) (by decide)⟩
  · exact ⟨_, h.2.2, .error _ (by decide) (by decide)⟩
  · refine ⟨_, h.2.2.2, .error e ?_ ?_⟩ <;>
      rcases streamCheck_some _ _ _ _ h.2.2.1 with rfl | rfl | rfl | rfl <;> decide
  · exact ⟨_, h.2.2.2.2, .bus _ rfl h.1⟩
  · have hn := (streamCheck_eq_none _ _ _).1 h.2.2.1
    have hle : n ≤ 64 := h.2.1
    have hlen : ((block s.skey s.snonce (indexOfCounter (counter s))).toList.take n).length = n := by
      simp only [List.length_take, Vector.length_toList]; omega
    have hframe := xorBytes_frame _ _ _ _ _ h.2.2.2.1
    refine ⟨_, h.2.2.2.2, .stream n 1 t (.inr ⟨rfl, rfl⟩) h.1 ?_
      (fun a ha => xorBytes_other _ _ _ (runBlock (indexOfCounter (counter s)) s) _ a (by rw [hlen]; exact ha)
        h.2.2.2.1) (fun hm => ?_) hn.2.2.2.2.2⟩
    · rw [hframe]; rfl
    · rcases rangeOK_bound _ _ hn.2.2.2.1 with hz | hr
      · subst hz
        have := h.2.2.2.1
        simp only [List.take_zero, xorBytes, Option.some.injEq] at this
        subst this
        exact hm
      · exact xorBytes_wf _ _ _ (runBlock (indexOfCounter (counter s)) s) _ (by rw [hlen]; exact hr) hm h.2.2.2.1

/-- Every command answers a next state, one of CommandEffect's. -/
theorem exec_effect (i : Instr) (s : State) : ∃ t, exec i s = .next t ∧ CommandEffect i s t := by
  cases i with
  | nop => exact ⟨_, rfl, .nop rfl⟩
  | sessionInit =>
    rcases execSessionInit_cases s with h | h
    · exact ⟨_, h.2, .error _ (by decide) (by decide)⟩
    · exact ⟨_, h.2, .sessionInit rfl h.1⟩
  | setNonce =>
    rcases execSetNonce_cases s with h | h | h
    · exact ⟨_, h.2, .error _ (by decide) (by decide)⟩
    · exact ⟨_, h.2.2, .error _ (by decide) (by decide)⟩
    · exact ⟨_, h.2.2, .setNonce rfl h.1⟩
  | keystream =>
    rcases execKeystream_cases s with h | h
    · exact ⟨_, h.2, .error _ (by decide) (by decide)⟩
    · exact ⟨_, h.2, .keystream rfl h.1⟩
  | processBlocks n => exact execProcessBlocks_effect n s
  | processBytes length => exact execProcessBytes_effect length s
  | sessionClear => exact ⟨_, rfl, .sessionClear rfl⟩

/-- If a command answers `t`, then `t` is one of CommandEffect's. -/
theorem exec_next_effect {i : Instr} {s t : State} (h : exec i s = .next t) : CommandEffect i s t := by
  obtain ⟨u, hu, heffect⟩ := exec_effect i s
  rw [h] at hu
  cases hu
  exact heffect

/-- The engine's step: the effect of the decoded command, or E_ILLEGAL. -/
theorem step_engine_effect {s t : State} (hdue : EngineDue s) (h : step s = .next t) :
    (∃ i, decode s.pend = .command i ∧ CommandEffect i s t) ∨ t = complete .illegal s := by
  rcases step_cases s with h' | h' | ⟨a, rest, h'⟩
  · rw [h'.2] at h
    rcases engineStep_cases s with ⟨i, hi, hx⟩ | ⟨_, _, hx⟩
    · exact .inl ⟨i, hi, exec_next_effect (hx ▸ h)⟩
    · rw [hx] at h
      cases h
      exact .inr rfl
  · exact absurd ((engineTurn_iff s).2 hdue) (by simp [h'.1])
  · exact absurd ((engineTurn_iff s).2 hdue) (by simp [h'.1])

/-- A step that is not the engine's: the host's next access, or no change. -/
theorem step_host_effect {s t : State} (hdue : ¬ EngineDue s) (h : step s = .next t) :
    t = s ∨ ∃ a rest, s.host = a :: rest ∧ hostAct a { s with host := rest, delay := s.delay - 1 } = .next t := by
  rcases step_cases s with h' | h' | ⟨a, rest, h'⟩
  · exact absurd ((engineTurn_iff s).1 h'.1) hdue
  · have := h'.2.2
    rw [h] at this
    cases this
    exact .inl rfl
  · exact .inr ⟨a, rest, h'.2.1, by rw [← h'.2.2, h]⟩

/-! ### Register writes and host accesses -/

/-- Only offset 0x4C is STATUS. -/
theorem regAt_eq_status (off : Nat) (h : regAt off = some .status) : off = 0x4C := by
  have skip : ∀ {c : Prop} [Decidable c] {r : Reg} {o : Option Reg},
      (if c then some r else o) = some .status → r ≠ .status → o = some .status := by
    intro c _ r o h hne
    split at h
    · exact absurd (Option.some.inj h) hne
    · exact h
  by_contra hne
  unfold regAt at h
  iterate 11 replace h := skip h (by simp)
  rw [if_neg hne] at h
  iterate 2 replace h := skip h (by simp)
  cases h

/-- The results of a register write: dropped, a command accepted, WERR cleared, or a plain register stored. -/
inductive RegWriteEffect (off : Nat) (v : Word) (s : State) : State → Prop
  | dropped (h : s.busy = true ∨ s.fault = true) : RegWriteEffect off v s { s with werr := true }
  | accepted (hbusy : s.busy = false) (hfault : s.fault = false) (hoff : regAt off = some .cmd) :
      RegWriteEffect off v s (acceptCommand v s)
  | cleared (hbusy : s.busy = false) (hfault : s.fault = false) (hoff : off = 0x4C) (hbit : v.getLsbD 4 = true) :
      RegWriteEffect off v s { s with werr := false }
  | stored (t : State)
      (h : t = { s with key := t.key, nonce := t.nonce, wrmask := t.wrmask, indexLo := t.indexLo,
                        indexHi := t.indexHi, srcAddr := t.srcAddr, dstAddr := t.dstAddr, srcLen := t.srcLen,
                        dstLen := t.dstLen }) : RegWriteEffect off v s t

/-- A register write is one of RegWriteEffect's. -/
theorem regWrite_effect (off : Nat) (v : Word) (s : State) : RegWriteEffect off v s (regWrite off v s) := by
  rcases regWrite_cases off v s with ⟨h, h'⟩ | ⟨hb, hf, r, hr, h'⟩ | ⟨_, _, _, h'⟩
  · rw [h']; exact .dropped h
  · rw [h']
    cases r with
    | cmd => exact .accepted hb hf hr
    | status =>
      unfold writeReg
      simp only
      split
      · exact .cleared hb hf (regAt_eq_status off hr) (by assumption)
      · exact .stored _ rfl
    | _ => exact .stored _ rfl
  · rw [h']; exact .stored _ rfl

/-- The next states of a host access. -/
inductive HostEffect (a : HostAct) (s : State) : State → Prop
  | saw (x : Seen) : HostEffect a s (see x s)
  | checked (x y : Seen) : HostEffect a s (see x (see y s))
  | polled (x : Seen) (ha : a = .poll) (hbusy : s.busy = true) : HostEffect a s { see x s with host := .poll :: s.host }
  | wrote (off : Nat) (v : Word) (ha : a = .wr 32 off v) : HostEffect a s (regWrite off v s)
  | stored (b : Nat) (bs : List Byte) (hb : b + bs.length ≤ memLimit ∨ bs = []) :
      HostEffect a s { s with mem := memWriteRange s.mem b bs }
  | reset (ha : a = .reset) : HostEffect a s (resetBlock s)

/-- Exactly the bytes that exist and that MemAdmit admits pass the host's check. -/
theorem hostAdmitted_iff (kind : AccessKind) (s : State) (n a : Nat) :
    hostAdmitted kind s a n = true ↔ ∀ p, p < n → a + p < memLimit ∧ admits s kind (a + p) = true := by
  induction n generalizing a with
  | zero => simp [hostAdmitted]
  | succ n ih =>
    unfold hostAdmitted
    rw [Bool.and_eq_true, Bool.and_eq_true, ih, decide_eq_true_iff]
    constructor
    · rintro ⟨h1, h2⟩ p hp
      cases p with
      | zero => exact h1
      | succ p =>
        have := h2 p (by omega)
        rwa [Nat.add_assoc, Nat.add_comm 1 p] at this
    · intro h
      refine ⟨h 0 (by omega), fun p hp => ?_⟩
      have := h (p + 1) (by omega)
      rwa [Nat.add_assoc, Nat.add_comm 1 p]

/-- If a host access answers `t`, then `t` is one of HostEffect's. -/
theorem hostAct_effect {a : HostAct} {s t : State} (h : hostAct a s = .next t) : HostEffect a s t := by
  cases a with
  | rd w off =>
    simp only [hostAct, hostRead] at h
    split at h <;> cases h
    exact .saw _
  | wr w off v =>
    simp only [hostAct, hostWrite] at h
    split at h <;> cases h
    rename_i hw
    simp only [windowAccess, Bool.and_eq_true, decide_eq_true_iff] at hw
    exact .wrote off v (by rw [hw.1.1])
  | poll =>
    simp only [hostAct, hostPoll] at h
    split at h <;> cases h
    · exact .polled _ rfl (by assumption)
    · exact .saw _
  | memRead b n =>
    simp only [hostAct, hostMemRead] at h
    split at h
    · cases h
    · split at h <;> cases h
      exact .saw _
  | memWrite b bs =>
    simp only [hostAct, hostMemWrite] at h
    split at h
    · cases h
    · split at h <;> cases h
      rename_i hadm
      refine .stored b bs ?_
      rcases Nat.eq_zero_or_pos bs.length with hz | hp
      · exact .inr (List.length_eq_zero_iff.1 hz)
      · have := (hostAdmitted_iff .write s bs.length b).1 (by simpa using hadm) (bs.length - 1) (by omega)
        exact .inl (by omega)
  | reset =>
    simp only [hostAct] at h
    cases h
    exact .reset rfl
  | check e =>
    simp only [hostAct] at h
    cases h
    exact .checked _ _

end Sys2Proof.Machine
end

