-- ==== Sys2Proof/Laws/PerInstr.lean ====
section
/-! SUPPORT. One lemma per command about its encoding (30_encoding R91, R93): the word's OP field is the command's opcode
and its ARG field the command's argument. -/

namespace Sys2Proof

/-- OP of an encoded command. -/
theorem opField_encode (i : Instr) : opField (encode i) = opcode i := by
  unfold opField encode
  ext k hk
  rw [BitVec.getElem_extractLsb', Nat.zero_add, BitVec.getLsbD_append, if_pos hk]
  exact BitVec.getLsbD_eq_getElem hk

/-- ARG of an encoded command. -/
theorem argField_encode (i : Instr) : argField (encode i) = BitVec.ofNat 24 (argument i) := by
  unfold argField encode
  ext k hk
  rw [BitVec.getElem_extractLsb', BitVec.getLsbD_append, if_neg (by omega), Nat.add_sub_cancel_left]
  exact BitVec.getLsbD_eq_getElem hk

namespace Laws.EncodingFields

/-- A well-formed command's word carries its opcode in OP and its argument, whole, in ARG. -/
def Statement (i : Instr) : Prop :=
  wellFormed i = true → opField (encode i) = opcode i ∧ (argField (encode i)).toNat = argument i

theorem fields_of_small (i : Instr) (h : argument i < argLimit) :
    opField (encode i) = opcode i ∧ (argField (encode i)).toNat = argument i := by
  refine ⟨opField_encode i, ?_⟩
  rw [argField_encode, BitVec.toNat_ofNat]
  exact Nat.mod_eq_of_lt h

theorem nop : Statement .nop := fun _ => fields_of_small _ (by decide)

theorem sessionInit : Statement .sessionInit := fun _ => fields_of_small _ (by decide)

theorem setNonce : Statement .setNonce := fun _ => fields_of_small _ (by decide)

theorem keystream : Statement .keystream := fun _ => fields_of_small _ (by decide)

theorem processBlocks (n : Nat) : Statement (.processBlocks n) :=
  fun h => fields_of_small _ (of_decide_eq_true h)

theorem processBytes (length : Nat) : Statement (.processBytes length) :=
  fun h => fields_of_small _ (of_decide_eq_true h)

theorem sessionClear : Statement .sessionClear := fun _ => fields_of_small _ (by decide)

end Laws.EncodingFields

end Sys2Proof
end

