-- ==== Sys2Proof/Machine/HostProgram.lean ====
section
/-! DEFINITION. The statements and pseudo-instructions of a host program as the accesses the host agent makes
(30_encoding R96, R97; 20_memory R64). -/

namespace Sys2Proof.Machine

/-- `wr REG, v` (30_encoding R96). -/
def wrReg (r : Reg) (v : Word) : HostAct := .wr 32 (regOffset r) v

/-- `rd REG` (R96). -/
def rdReg (r : Reg) : HostAct := .rd 32 (regOffset r)

/-- `.cmd w`: `wr CMD, w` with any word (R96). -/
def rawCommand (w : Word) : HostAct := wrReg .cmd w

/-- A command mnemonic: its CMD write, then `poll` (30_encoding R97). -/
def commandProgram (i : Instr) : List HostAct := [rawCommand (encode i), .poll]

/-- `mw a, b0, b1, …`: host byte writes, one access per byte (R96); without a byte, none (DESIGN CHOICE, log entry 9). -/
def memProgram : Nat → List Byte → List HostAct
  | _, [] => []
  | a, b :: bs => .memWrite a [b] :: memProgram (a + 1) bs

/-- The words `ws` to KEY0, KEY1, … in order, at most eight: with fewer than eight the later key words are not written
(95_test_vectors Program 4; DESIGN CHOICE, log entry 11). -/
def setKeyWords (ws : List Word) : List HostAct :=
  ((List.finRange 8).zip ws).map fun p => wrReg (.key p.1) p.2

/-- `setkey k0, …, k7` (R97). -/
def setKeyProgram (k : Vector Word 8) : List HostAct := setKeyWords k.toList

/-- `setnonce n0, n1` (R97). -/
def setNonceProgram (n0 n1 : Word) : List HostAct := [wrReg (.nonce 0) n0, wrReg (.nonce 1) n1]

/-- `setsecret S`, the 40 bytes of key then nonce (R97, 20_memory R64). -/
def setSecretProgram (secret : List Byte) : List HostAct :=
  setKeyProgram (Vector.ofFn fun i => le32 secret (4 * i.val))
    ++ setNonceProgram (le32 secret 32) (le32 secret 36)

/-- `setidx lo, hi` (R97). -/
def setIndexProgram (lo hi : Word) : List HostAct := [wrReg .indexLo lo, wrReg .indexHi hi]

/-- `setsrc a, len` (R97). -/
def setSourceProgram (a len : Word) : List HostAct := [wrReg .srcAddr a, wrReg .srcLen len]

/-- `setdst a, len` (R97). -/
def setDestinationProgram (a len : Word) : List HostAct := [wrReg .dstAddr a, wrReg .dstLen len]

/-- A host program loaded for the host agent to perform (DESIGN CHOICE, log entry 5). -/
def loadProgram (p : List HostAct) (s : State) : State := { s with host := s.host ++ p }

end Sys2Proof.Machine
end

