-- ==== Sys2Proof/Machine/Assembler.lean ====
section
/-! DEFINITION. The text form of a host program (30_encoding R96, R97): one statement per line, read from its characters.
Names and digits are lists of characters so that Lean's kernel can evaluate the reading (DESIGN CHOICE, log entry 9). -/

namespace Sys2Proof.Machine

/-- The characters that part the words of a line. -/
def isBlank (c : Char) : Bool := c = ' ' || c = ',' || c = '\t'

/-- The words of a line up to `;`, which starts a comment (30_encoding R96); `word` holds the word being read, reversed. -/
def wordsOf : List Char → List Char → List (List Char)
  | [], word => if word.isEmpty then [] else [word.reverse]
  | c :: cs, word =>
    if c = ';' then (if word.isEmpty then [] else [word.reverse])
    else if isBlank c then (if word.isEmpty then wordsOf cs [] else word.reverse :: wordsOf cs [])
    else wordsOf cs (c :: word)

/-- The value of a hexadecimal digit, upper or lower case. -/
def hexDigit (c : Char) : Option Nat :=
  let n := c.toNat
  if 48 ≤ n && n ≤ 57 then some (n - 48)
  else if 65 ≤ n && n ≤ 70 then some (n - 55)
  else if 97 ≤ n && n ≤ 102 then some (n - 87)
  else none

/-- Digits in a base, most significant first. -/
def digitsValue (base : Nat) : List Char → Nat → Option Nat
  | [], acc => some acc
  | c :: cs, acc =>
    match hexDigit c with
    | some d => if d < base then digitsValue base cs (acc * base + d) else none
    | none => none

/-- A number, decimal or `0x` hexadecimal (30_encoding R96). -/
def numberOf : List Char → Option Nat
  | [] => none
  | '0' :: 'x' :: cs => if cs.isEmpty then none else digitsValue 16 cs 0
  | cs => digitsValue 10 cs 0

/-- A number that fits a 32-bit register. -/
def wordOf (cs : List Char) : Option Word :=
  match numberOf cs with
  | some n => if n < 2 ^ 32 then some (BitVec.ofNat 32 n) else none
  | none => none

/-- A number that fits a byte. -/
def byteNumber (cs : List Char) : Option Byte :=
  match numberOf cs with
  | some n => if n < 256 then some (BitVec.ofNat 8 n) else none
  | none => none

/-- The bytes of a string of hexadecimal digits, two a byte. -/
def hexBytes : List Char → Option (List Byte)
  | [] => some []
  | [_] => none
  | a :: b :: cs =>
    match hexDigit a, hexDigit b, hexBytes cs with
    | some h, some l, some bs => some (BitVec.ofNat 8 (16 * h + l) :: bs)
    | _, _, _ => none

/-- The single register names (10_state R37). -/
def registerNames : List (List Char × Reg) :=
  [(['I', 'N', 'D', 'E', 'X', '_', 'L', 'O'], .indexLo),
   (['I', 'N', 'D', 'E', 'X', '_', 'H', 'I'], .indexHi),
   (['C', 'T', 'R', '_', 'L', 'O'], .ctrLo),
   (['C', 'T', 'R', '_', 'H', 'I'], .ctrHi),
   (['S', 'R', 'C', '_', 'A', 'D', 'D', 'R'], .srcAddr),
   (['D', 'S', 'T', '_', 'A', 'D', 'D', 'R'], .dstAddr),
   (['S', 'R', 'C', '_', 'L', 'E', 'N'], .srcLen),
   (['D', 'S', 'T', '_', 'L', 'E', 'N'], .dstLen),
   (['C', 'M', 'D'], .cmd),
   (['S', 'T', 'A', 'T', 'U', 'S'], .status),
   (['W', 'R', 'M', 'A', 'S', 'K'], .wrmask)]

/-- A register by name: KEY0-KEY7, NONCE0-NONCE1, KS0-KS15 and the single names, spelled as 10_state R37 spells them
(no leading zeros). -/
def registerOf (cs : List Char) : Option Reg :=
  match cs with
  | ['K', 'E', 'Y', d] =>
    match digitsValue 8 [d] 0 with
    | some i => some (.key (Fin.ofNat 8 i))
    | none => none
  | ['N', 'O', 'N', 'C', 'E', d] =>
    match digitsValue 2 [d] 0 with
    | some j => some (.nonce (Fin.ofNat 2 j))
    | none => none
  | ['K', 'S', d] =>
    match digitsValue 10 [d] 0 with
    | some i => some (.ks (Fin.ofNat 16 i))
    | none => none
  | ['K', 'S', '1', d] =>
    match digitsValue 6 [d] 0 with
    | some i => some (.ks (Fin.ofNat 16 (10 + i)))
    | none => none
  | _ => registerNames.lookup cs

/-- The operand of `rd` and `wr`: a register name, or an offset as a number (95_test_vectors V-REG-4 reads `0x54`). -/
def offsetOf (cs : List Char) : Option Nat :=
  match registerOf cs with
  | some r => some (regOffset r)
  | none => numberOf cs

/-- The opcode a mnemonic or its short form names (30_encoding R93). -/
def mnemonicNames : List (List Char × BitVec 8) :=
  [(['N', 'O', 'P'], 0),
   (['n', 'o', 'p'], 0),
   (['S', 'E', 'S', 'S', 'I', 'O', 'N', '_', 'I', 'N', 'I', 'T'], 1),
   (['s', 'i', 'n', 'i', 't'], 1),
   (['S', 'E', 'T', '_', 'N', 'O', 'N', 'C', 'E'], 2),
   (['s', 'n', 'o', 'n', 'c', 'e'], 2),
   (['K', 'E', 'Y', 'S', 'T', 'R', 'E', 'A', 'M'], 3),
   (['k', 's', 'b', 'l', 'k'], 3),
   (['P', 'R', 'O', 'C', 'E', 'S', 'S', '_', 'B', 'L', 'O', 'C', 'K', 'S'], 4),
   (['p', 'b', 'l', 'k'], 4),
   (['P', 'R', 'O', 'C', 'E', 'S', 'S', '_', 'B', 'Y', 'T', 'E', 'S'], 5),
   (['p', 'b', 'y', 't'], 5),
   (['S', 'E', 'S', 'S', 'I', 'O', 'N', '_', 'C', 'L', 'E', 'A', 'R'], 6),
   (['s', 'c', 'l', 'r'], 6)]

/-- A command with its written argument: CMD-Z takes none, CMD-N and CMD-L one in 0 .. 2^24 - 1 (30_encoding R96). -/
def commandOf (op : BitVec 8) (args : List (List Char)) : Option Instr :=
  let plain (i : Instr) : Option Instr := if args.isEmpty then some i else none
  let counted (f : Nat → Instr) : Option Instr :=
    match args with
    | [a] =>
      match numberOf a with
      | some n => if wellFormed (f n) then some (f n) else none
      | none => none
    | _ => none
  if op = 0 then plain .nop
  else if op = 1 then plain .sessionInit
  else if op = 2 then plain .setNonce
  else if op = 3 then plain .keystream
  else if op = 4 then counted .processBlocks
  else if op = 5 then counted .processBytes
  else if op = 6 then plain .sessionClear
  else none

/-- The pseudo-instructions that take words (30_encoding R97). `setkey` takes eight words, or fewer, down to one, as
Program 4 of 95_test_vectors writes it with seven; with none or more than eight the line is refused (DESIGN CHOICE, log
entry 11). -/
def wordStatement (name : List Char) (ws : List Word) : Option (List HostAct) :=
  if name = ['s', 'e', 't', 'k', 'e', 'y'] then
    if 1 ≤ ws.length && ws.length ≤ 8 then some (setKeyWords ws) else none
  else if name = ['s', 'e', 't', 'n', 'o', 'n', 'c', 'e'] then
    match ws with
    | [a, b] => some (setNonceProgram a b)
    | _ => none
  else if name = ['s', 'e', 't', 'i', 'd', 'x'] then
    match ws with
    | [a, b] => some (setIndexProgram a b)
    | _ => none
  else if name = ['s', 'e', 't', 's', 'r', 'c'] then
    match ws with
    | [a, b] => some (setSourceProgram a b)
    | _ => none
  else if name = ['s', 'e', 't', 'd', 's', 't'] then
    match ws with
    | [a, b] => some (setDestinationProgram a b)
    | _ => none
  else if name = ['.', 'c', 'm', 'd'] then
    match ws with
    | [w] => some [rawCommand w]
    | _ => none
  else none

/-- The statements that are no command mnemonic: name and operands as accesses; `none` where the assembler refuses them. -/
def accessStatement (name : List Char) (args : List (List Char)) : Option (List HostAct) :=
  if name = ['w', 'r'] then
    match args with
    | [r, v] => do some [.wr 32 (← offsetOf r) (← wordOf v)]
    | _ => none
  else if name = ['r', 'd'] then
    match args with
    | [r] => do some [.rd 32 (← offsetOf r)]
    | _ => none
  else if name = ['p', 'o', 'l', 'l'] then (if args.isEmpty then some [.poll] else none)
  else if name = ['r', 'e', 's', 'e', 't'] then (if args.isEmpty then some [.reset] else none)
  else if name = ['m', 'w'] then
    match args with
    | a :: bs => do some (memProgram (← numberOf a) (← bs.mapM byteNumber))
    | [] => none
  else if name = ['c', 'h', 'e', 'c', 'k'] then
    match args with
    | [e] => do some [.check (← byteNumber e)]
    | _ => none
  else if name = ['s', 'e', 't', 's', 'e', 'c', 'r', 'e', 't'] then
    match args with
    | [secret] =>
      match hexBytes secret with
      | some bs => if bs.length = 40 then some (setSecretProgram bs) else none
      | none => none
    | _ => none
  else do wordStatement name (← args.mapM wordOf)

/-- What the assembler makes of a line: its accesses, and whether it marks the line with a warning (30_encoding R96). -/
structure AssembledLine where
  accesses : List HostAct
  warned : Bool
  deriving DecidableEq, Repr

/-- A line without a warning. -/
def unwarned (accesses : List HostAct) : AssembledLine := { accesses := accesses, warned := false }

/-- A command's line; `pbyt 65` and larger is accepted and marked with a warning (30_encoding R96). -/
def commandLine (i : Instr) : AssembledLine := { accesses := commandProgram i, warned := lengthWarning i }

/-- One statement: its name and operands; `none` where the assembler refuses it. -/
def statementOf (name : List Char) (args : List (List Char)) : Option AssembledLine :=
  match mnemonicNames.lookup name with
  | some op => (commandOf op args).map commandLine
  | none => (accessStatement name args).map unwarned

/-- One line of a host program (30_encoding R96). -/
def assembleLine (line : List Char) : Option AssembledLine :=
  match wordsOf line [] with
  | [] => some (unwarned [])
  | name :: args => statementOf name args

/-- A host program, line by line, each with its mark; `none` where some line is refused. -/
def assemble : List (List Char) → Option (List AssembledLine)
  | [] => some []
  | line :: lines => do some ((← assembleLine line) :: (← assemble lines))

/-- The accesses of an assembled program, for the host to perform. -/
def programAccesses (lines : List AssembledLine) : List HostAct := lines.flatMap (·.accesses)

end Sys2Proof.Machine
end

