-- ==== Sys2Proof/Tests/Slice0.lean ====
section
/-! SUPPORT. The model's own tests. Expected values are the spec's: 30_encoding R98 and 95_test_vectors (the vector's name
is in each comment), or written out from the rule cited. After them, for every obligation with hypotheses, a state and
operands that meet them together (`witness_…`). -/

namespace Sys2Proof.Tests

open Sys2Proof Sys2Proof.Machine

/-! ### Small states -/

/-- A platform on which every byte may be read and written. -/
def allMemory : Platform := .given [{ base := 0, size := 2 ^ 32, readable := true, writable := true }]

/-- A platform on which only bytes from 0x2000 on exist. -/
def highMemory : Platform := .given [{ base := 0x2000, size := 2 ^ 32 - 0x2000, readable := true, writable := true }]

/-- Session Z of 95_test_vectors: zero key and nonce, counter 0; buffers 0x1000 and 0x2000 of 64 bytes. -/
def session : State :=
  { State.reset with sess := true, platform := allMemory, srcAddr := 0x1000, srcLen := 64, dstAddr := 0x2000, dstLen := 64 }

/-- Session Z whose source ends at 2^32 (V-CMD-9). -/
def topSession : State := { session with srcAddr := 0xFFFFFFC0 }

/-- Session Z with C = 2^64 (V-CMD-20). -/
def exhausted : State := { session with exh := true }

/-- Session Z with C = 2^64 - 1 (V-CMD-19). -/
def lastBlock : State := { session with ctr := 0xFFFFFFFFFFFFFFFF }

/-- Does an outcome answer a next state with a property? -/
def answers (o : Host.Outcome State Fault Refusal) (p : State → Bool) : Bool :=
  match o with
  | .next t => p t
  | .fault _ => false
  | .refused _ => false

theorem answers_next {o : Host.Outcome State Fault Refusal} {p : State → Bool} (h : answers o p = true) :
    ∃ t, o = .next t ∧ p t = true := by
  cases o with
  | next t => exact ⟨t, rfl, h⟩
  | fault r => cases h
  | refused r => cases h

/-- One step with the command word `w` in flight and due answers a next state with a property. -/
def runs (w : Word) (s : State) (p : State → Bool) : Bool := answers (step (placeCommand w s)) p

/-! ### WellFormed: an ill-formed term for each check -/

theorem test_illformed_blocks : wellFormed (.processBlocks (2 ^ 24)) = false := by decide
theorem test_wellformed_blocks : wellFormed (.processBlocks (2 ^ 24 - 1)) = true := by decide
theorem test_illformed_bytes : wellFormed (.processBytes (2 ^ 24)) = false := by decide
theorem test_wellformed_bytes : wellFormed (.processBytes (2 ^ 24 - 1)) = true := by decide
/-- 30_encoding R96: `pbyt 65` is accepted with a warning. -/
theorem test_length_warning : lengthWarning (.processBytes 65) = true ∧ lengthWarning (.processBytes 64) = false := by
  decide

/-! ### Decoding: words written out bit by bit from 30_encoding R91-R93, ARG then OP -/

theorem test_decode_nop :
    decode ((0b000000000000000000000000 : BitVec 24) ++ (0b00000000 : BitVec 8)) = .command .nop := by decide
theorem test_decode_sessionInit :
    decode ((0b000000000000000000000000 : BitVec 24) ++ (0b00000001 : BitVec 8)) = .command .sessionInit := by decide
theorem test_decode_setNonce :
    decode ((0b000000000000000000000000 : BitVec 24) ++ (0b00000010 : BitVec 8)) = .command .setNonce := by decide
theorem test_decode_keystream :
    decode ((0b000000000000000000000000 : BitVec 24) ++ (0b00000011 : BitVec 8)) = .command .keystream := by decide
theorem test_decode_processBlocks :
    decode ((0b100000000000000000000011 : BitVec 24) ++ (0b00000100 : BitVec 8))
      = .command (.processBlocks 0x800003) := by decide
theorem test_decode_processBytes :
    decode ((0b000000000000000000100100 : BitVec 24) ++ (0b00000101 : BitVec 8)) = .command (.processBytes 36) := by
  decide
theorem test_decode_sessionClear :
    decode ((0b000000000000000000000000 : BitVec 24) ++ (0b00000110 : BitVec 8)) = .command .sessionClear := by decide
/-- 30_encoding R95: a reserved opcode, and SESSION_CLEAR's with bit 31 set. -/
theorem test_decode_illegal :
    decode ((0b000000000000000000000000 : BitVec 24) ++ (0b11111111 : BitVec 8)) = .illegal (.reservedOpcode 255)
      ∧ decode ((0b100000000000000000000000 : BitVec 24) ++ (0b00000110 : BitVec 8))
        = .illegal (.nonzeroArg 6 0x800000) := by decide
theorem test_decodeTableWord :
    decodeTableWord 32 0x00001004 = some (.processBlocks 16) ∧ decodeTableWord 32 0x00000007 = none
      ∧ decodeTableWord 8 0x06 = some .sessionClear := by decide

/-! ### The Block Engine -/

/-- V-QR-3, V-QR-4, V-QR-5, V-QR-7. -/
theorem test_quarterRound :
    quarterRound 0 1 0 0 = (0x88000100, 0x00000001, 0x00000200, 0x00402000)
      ∧ quarterRound 0 0 1 0 = (0x80040000, 0x00000000, 0x00000001, 0x00002000)
      ∧ quarterRound 0 0 0 1 = (0x00048044, 0x00000080, 0x00010000, 0x20100001)
      ∧ quarterRound 0xD3917C5B 0x55F1C407 0x52A58A7A 0x8F887A3B
        = (0x3E2F308C, 0xD90A8F36, 0x6AB2A923, 0x2883524C) := by decide +kernel

/-- V-RR-1. -/
theorem test_rowRound :
    rowRound #v[1, 0, 0, 0, 1, 0, 0, 0, 1, 0, 0, 0, 1, 0, 0, 0]
      = #v[0x08008145, 0x00000080, 0x00010200, 0x20500000, 0x20100001, 0x00048044, 0x00000080, 0x00010000,
           0x00000001, 0x00002000, 0x80040000, 0x00000000, 0x00000001, 0x00000200, 0x00402000, 0x88000100] := by
  decide +kernel

/-- V-CR-1. -/
theorem test_columnRound :
    columnRound #v[1, 0, 0, 0, 1, 0, 0, 0, 1, 0, 0, 0, 1, 0, 0, 0]
      = #v[0x10090288, 0, 0, 0, 0x00000101, 0, 0, 0, 0x00020401, 0, 0, 0, 0x40A04001, 0, 0, 0] := by decide +kernel

/-- V-DR-1. -/
theorem test_doubleRound :
    doubleRound #v[1, 0, 0, 0, 0, 0, 0, 0, 0, 0, 0, 0, 0, 0, 0, 0]
      = #v[0x8186A22D, 0x0040A284, 0x82479210, 0x06929051, 0x08000090, 0x02402200, 0x00004000, 0x00800000,
           0x00010200, 0x20400000, 0x08008104, 0x00000000, 0x20500000, 0xA0000040, 0x0008180A, 0x612A8020] := by
  decide +kernel

/-- V-CORE-1. -/
theorem test_core :
    let s : Words16 := #v[0x730D9FD3, 0xB752374C, 0x25DE7503, 0x88EABBBF, 0x30B3ED31, 0xDBB26A01, 0x30A6C7AF, 0xCFB31056,
      0x3F20F01F, 0xA15D530F, 0x71309374, 0x24CC37EE, 0x4FEBC94F, 0x2F9C5103, 0xF3F41ACB, 0x36687658]
    feedForward (mix20 s) s
      = #v[0xA8B22A6D, 0xEEF8F09C, 0xCBBEC4A8, 0x9AAA6E1A, 0x1A961D1D, 0xF9EB1E96, 0x30FBA3BE, 0x39339045,
           0x9D982876, 0x5E1B39B4, 0x23EC2A6B, 0x72726F1B, 0x87E8ECDB, 0x126E9B6F, 0x9E5FE818, 0xCA3013B3] := by
  decide +kernel

/-- V-ECRYPT-1, the whole block with its byte order. -/
theorem test_ecrypt_block :
    (block #v[0x80, 0, 0, 0, 0, 0, 0, 0] #v[0, 0] 0).toList
      = [0xE3, 0xBE, 0x8F, 0xDD, 0x8B, 0xEC, 0xA2, 0xE3, 0xEA, 0x8E, 0xF9, 0x47, 0x5B, 0x29, 0xA6, 0xE7,
         0x00, 0x39, 0x51, 0xE1, 0x09, 0x7A, 0x5C, 0x38, 0xD2, 0x3B, 0x7A, 0x5F, 0xAD, 0x9F, 0x68, 0x44,
         0xB2, 0x2C, 0x97, 0x55, 0x9E, 0x27, 0x23, 0xC7, 0xCB, 0xBD, 0x3F, 0xE4, 0xFC, 0x8D, 0x9A, 0x07,
         0x44, 0x65, 0x2A, 0x83, 0xE7, 0x2A, 0x9C, 0x46, 0x18, 0x76, 0xAF, 0x4D, 0x7E, 0xF1, 0xA1, 0x17] := by
  decide +kernel

/-- V-BLK-4, V-BLK-5: both counter words are used. -/
theorem test_block_index :
    (block #v[0, 0, 0, 0, 0, 0, 0, 0] #v[0, 0] 0x100000000).toList.take 4 = [0xB6, 0x5F, 0xC7, 0x77]
      ∧ (block #v[0, 0, 0, 0, 0, 0, 0, 0] #v[0, 0] 0xFFFFFFFFFFFFFFFF).toList.take 4 = [0xAA, 0xDC, 0x3B, 0x6B] := by
  decide +kernel

/-- V-BLK-6: key, nonce and index all non-zero. -/
theorem test_block_key_nonce :
    blockWords #v[0x04030201, 0x08070605, 0x0C0B0A09, 0x100F0E0D, 0x14131211, 0x18171615, 0x1C1B1A19, 0x201F1E1D]
        #v[0x01040103, 0x06020905] 7
      = #v[0xB9A205A3, 0x0695E150, 0xAA94881A, 0xADB7B12C, 0x798942D4, 0x26107016, 0x64EDB1A4, 0x2D27173F,
           0xB1C7F1FA, 0x62066EDC, 0xE035FA23, 0xC4496F04, 0x2131E6B3, 0x810BDE28, 0xF62CB407, 0x6BDEDE3D] := by
  decide +kernel

/-! ### Registers and the host -/

/-- V-REG-1, V-REG-2, V-REG-3: staging, its mask bits, a read-only register. -/
theorem test_registers :
    regRead 0x00 (regWrite 0x00 0x12345678 State.reset) = 0
      ∧ regRead 0x50 (regWrite 0x00 0x12345678 State.reset) = 0x001
      ∧ regRead 0x24 (regWrite 0x24 0xCAFEF00D State.reset) = 0xCAFEF00D
      ∧ regRead 0x50 (regWrite 0x24 0xCAFEF00D State.reset) = 0x200
      ∧ regRead 0x30 (regWrite 0x30 5 State.reset) = 0 := by decide

/-- V-REG-5, V-REG-6: WERR is cleared by writing 1. -/
theorem test_werr :
    (regWrite 0x4C 0x10 { State.reset with werr := true }).werr = false
      ∧ regWrite 0x4C 0xFFFFFFEF { State.reset with werr := true } = { State.reset with werr := true } := by decide

/-- V-REG-7, V-REG-8. -/
theorem test_host_access (s : State) :
    hostAct (.rd 16 0x4C) s = .fault .hostAccess ∧ hostAct (.wr 32 0x4E 0) s = .fault .hostAccess := ⟨rfl, rfl⟩

/-- Program 6 (a): the engine moves first where no delay is left. -/
theorem test_engine_first :
    runs 0 { State.reset with host := [.wr 32 0x28 5] } (fun t => t.indexLo == 0 && statusWord t == 0x00000002) = true := by
  decide

/-- Program 6 (b): the write comes while BUSY = 1 and is dropped. -/
theorem test_write_while_busy :
    answers (step { placeCommand 0 State.reset with host := [.wr 32 0x28 5], delay := 1 })
      (fun t => t.indexLo == 0 && statusWord t == 0x00000011) = true := by decide

/-- 30_encoding R97, 20_memory R64: `setsecret` takes the bytes in order, low byte first. -/
theorem test_setsecret :
    (setSecretProgram ((List.range 40).map (BitVec.ofNat 8))).take 2
        = [.wr 32 0x00 0x03020100, .wr 32 0x04 0x07060504]
      ∧ (setSecretProgram ((List.range 40).map (BitVec.ofNat 8))).drop 8
        = [.wr 32 0x20 0x23222120, .wr 32 0x24 0x27262524] := by decide

/-- The accesses of one line. -/
def accessesOf (line : List Char) : Option (List HostAct) := (assembleLine line).map (·.accesses)

/-- 30_encoding R96, R97: a command with its comment, a data write, and a line the assembler refuses. -/
theorem test_assembler :
    accessesOf ['p', 'b', 'l', 'k', ' ', '0', 'x', '1', '0', ' ', ';', ' ', 'n'] = some [.wr 32 0x48 0x00001004, .poll]
      ∧ accessesOf ['m', 'w', ' ', '1', '6', ',', ' ', '0', 'x', 'A', 'b', ',', '7']
        = some [.memWrite 16 [0xAB], .memWrite 17 [7]]
      ∧ accessesOf ['s', 'i', 'n', 'i', 't', ' ', '1'] = none := by decide +kernel

/-- 30_encoding R96: `pbyt 65` is accepted, encodes and is marked with a warning; `pbyt 64` is not marked. -/
theorem test_assembler_warning :
    assembleLine ['p', 'b', 'y', 't', ' ', '6', '5']
        = some { accesses := [.wr 32 0x48 0x00004105, .poll], warned := true }
      ∧ assembleLine ['p', 'b', 'y', 't', ' ', '6', '4']
        = some { accesses := [.wr 32 0x48 0x00004005, .poll], warned := false } := by decide +kernel

/-- 10_state R37: KS9, KS10 and KS15 are names; KS16, KS05, KS015 and KS are none. -/
theorem test_register_names :
    registerOf ['K', 'S', '9'] = some (.ks 9) ∧ registerOf ['K', 'S', '1', '0'] = some (.ks 10)
      ∧ registerOf ['K', 'S', '1', '5'] = some (.ks 15) ∧ registerOf ['K', 'S', '1', '6'] = none
      ∧ registerOf ['K', 'S', '0', '5'] = none ∧ registerOf ['K', 'S', '0', '1', '5'] = none
      ∧ registerOf ['K', 'S'] = none := by decide +kernel

/-- 95_test_vectors Program 4: `setkey` with seven words writes KEY0 to KEY6, offsets 0x00 to 0x18. -/
theorem test_setkey_seven :
    accessesOf ['s', 'e', 't', 'k', 'e', 'y', ' ', '1', ',', '2', ',', '3', ',', '4', ',', '5', ',', '6', ',', '7']
      = some [.wr 32 0x00 1, .wr 32 0x04 2, .wr 32 0x08 3, .wr 32 0x0C 4, .wr 32 0x10 5, .wr 32 0x14 6,
          .wr 32 0x18 7] := by decide +kernel

/-- 30_encoding R97: `setkey` with eight words. -/
theorem test_setkey_eight :
    setKeyProgram #v[1, 2, 3, 4, 5, 6, 7, 8]
      = [.wr 32 0x00 1, .wr 32 0x04 2, .wr 32 0x08 3, .wr 32 0x0C 4, .wr 32 0x10 5, .wr 32 0x14 6, .wr 32 0x18 7,
          .wr 32 0x1C 8] := by decide

/-! ### Commands, one step each -/

/-- The word placed by withFetchWord is the one the very next step runs (41_commands R141, 60_exceptions R183). -/
theorem test_withFetchWord :
    answers (step (State.reset.withFetchWord 32 0x00001004)) (fun t => statusWord t == 0x00000202 && t.cmd == 0x00001004)
      = true := by decide

/-- V-CMD-1. -/
theorem test_nop : runs 0x00000000 State.reset (fun t => statusWord t == 0x00000002) = true := by decide

/-- V-CMD-2 and V-CMD-3, with the key's last word told from the others. -/
theorem test_sessionInit :
    runs 0x00000001 { State.reset with wrmask := 0x37F } (fun t => statusWord t == 0x00000302) = true
      ∧ runs 0x00000001 { State.reset with wrmask := 0x3FF, key := #v[0, 0, 0, 0, 0, 0, 0, 9], nonce := #v[0, 7] }
        (fun t => statusWord t == 0x00000006 && t.wrmask == 0 && t.skey[7] == 9 && t.snonce[1] == 7) = true := by decide

/-- V-CMD-4, V-CMD-23. -/
theorem test_setNonce :
    runs 0x00000002 session (fun t => statusWord t == 0x00000306) = true
      ∧ runs 0x00000002 { exhausted with wrmask := 0x3AA, nonce := #v[1, 0] }
        (fun t => statusWord t == 0x00000006 && t.wrmask == 0x0AA && t.snonce == #v[1, 0]) = true := by decide

/-- V-CMD-6, on the last word. -/
theorem test_keystream :
    runs 0x00000003 exhausted (fun t => t.ks[15] == 0x392AC12A && t.exh && t.err == .none) = true := by decide +kernel

/-- V-CMD-9: a source that ends at 2^32. -/
theorem test_processBlocks :
    runs 0x00000104 topSession (fun t => memReadRange t.mem 0x2000 4 == [0x9A, 0x97, 0xF6, 0x5B]
      && memRead t.mem 0x203F == 0x39 && counter t == 1 && t.err == .none) = true := by decide +kernel

/-- V-CMD-26: a byte that is not admitted. -/
theorem test_processBlocks_bus :
    runs 0x00000104 { session with platform := highMemory } (fun t =>
      t.fault && t.err == .bus && t.done && t.sess && !t.busy) = true := by decide +kernel

/-- V-CMD-16: four bytes in place, the fifth left alone. -/
theorem test_processBytes :
    runs 0x00000405 { session with dstAddr := 0x1000 } (fun t =>
      t.mem == [(0x1000, 0x9A), (0x1001, 0x97), (0x1002, 0xF6), (0x1003, 0x5B)] && counter t == 1) = true := by
  decide +kernel

/-- V-CMD-19, V-PRI-1, V-PRI-2, V-PRI-5: the counter's last step, and the order of the checks. -/
theorem test_processBytes_checks :
    runs 0x00000005 lastBlock (fun t => t.exh && t.ctr == 0 && t.err == .none) = true
      ∧ runs 0x00004105 State.reset (fun t => t.err == .noSession) = true
      ∧ runs 0x00004105 { session with srcLen := 0 } (fun t => t.err == .length) = true
      ∧ runs 0x00000205 { exhausted with srcAddr := 0xFFFFFFFF } (fun t => t.err == .range) = true := by decide +kernel

/-- V-CMD-18. -/
theorem test_sessionClear :
    runs 0x00000006 { session with ctr := 5, key := #v[1, 2, 3, 4, 5, 6, 7, 8], wrmask := 0x3FF } (fun t =>
      statusWord t == 0x00000002 && t.ctr == 0 && t.key == Vector.replicate 8 0 && t.wrmask == 0
        && t.srcAddr == 0x1000) = true := by decide

/-- V-CMD-17, V-PRI-3. -/
theorem test_illegal :
    runs 0x000000FF session (fun t => statusWord t == 0x00000106) = true
      ∧ runs 0x00000101 State.reset (fun t => statusWord t == 0x00000102) = true := by decide

/-! ### Witnesses: the hypotheses of each obligation, met together -/

/-- Session Z with the command word `w` in flight and due. -/
def inFlight (w : Word) : State := placeCommand w session

/-- Session Z with the command word `w` in flight and the host to move. -/
def waiting (w : Word) (rest : List HostAct) : State := { inFlight w with host := rest, delay := 3 }

/-- Session Z faulted by E_BUS. -/
def faulted : State := { session with fault := true, err := .bus, done := true }

theorem witness_roundTrip :
    wellFormed (.processBlocks 16777215) = true ∧ decode 0xFFFFFF04 = .command (.processBlocks 16777215) := by decide

theorem witness_reserved :
    EngineDue (inFlight 0x00000007) ∧ (inFlight 0x00000007).pend = 0x00000007 ∧ (inFlight 0x00000007).fault = false
      ∧ decode 0x00000007 = .illegal (.reservedOpcode 7)
      ∧ EngineDue (inFlight 0x80000006) ∧ (inFlight 0x80000006).pend = 0x80000006
      ∧ decode 0x80000006 = .illegal (.nonzeroArg 6 0x800000) := by decide

theorem witness_engineStep :
    EngineDue (inFlight 0x00000405) ∧ decode (inFlight 0x00000405).pend = .command (.processBytes 4)
      ∧ EngineDue { inFlight 0x00000003 with delay := 9 } := by decide

theorem witness_hostSteps :
    ¬ EngineDue (waiting 0 [.poll]) ∧ (waiting 0 [.poll]).host = [.poll]
      ∧ ¬ EngineDue { State.reset with host := [.reset] } ∧ Final State.reset := by decide

theorem witness_polling : (waiting 0 [.poll]).busy = true ∧ (waiting 0 [.poll]).host = .poll :: [] := by decide

theorem witness_nop : (0x00000100 : Word).toNat % 256 = 0 ∧ (0x00000100 : Word).toNat / 256 ≠ 0 := by decide

theorem witness_sessionInit :
    ({ State.reset with wrmask := 0x3FF }).wrmask = 0x3FF ∧ ({ State.reset with wrmask := 0x3FE }).wrmask ≠ 0x3FF := by
  decide

theorem witness_setNonce :
    session.sess = true ∧ ({ session with wrmask := 0x300 }).wrmask.extractLsb' 8 2 = 3
      ∧ ({ session with wrmask := 0x2FF }).wrmask.extractLsb' 8 2 ≠ 3 ∧ State.reset.sess = false := by decide

theorem witness_keystream : exhausted.sess = true ∧ State.reset.sess = false := by decide

theorem witness_sessionClear :
    session.werr = false ∧ session.fault = false ∧ (0x00000106 : Word).toNat % 256 = 6
      ∧ (0x00000106 : Word).toNat / 256 ≠ 0 := by decide

/-- One block in place, one ending at 2^32, the last block of a nonce, and no block at C = 2^64. -/
theorem witness_streamBlocks :
    MemoryCanonical topSession ∧ Transferable (64 * 1) 1 topSession ∧ AllAdmitted (64 * 1) topSession
      ∧ Transferable (64 * 1) 1 { lastBlock with dstAddr := 0x1000 }
      ∧ AllAdmitted (64 * 1) { lastBlock with dstAddr := 0x1000 }
      ∧ Transferable (64 * 0) 0 { exhausted with srcLen := 0 } := by decide +kernel

/-- 64 bytes and 0 bytes. -/
theorem witness_streamBytes :
    Transferable 64 1 topSession ∧ AllAdmitted 64 topSession ∧ Transferable 0 1 lastBlock ∧ AllAdmitted 0 lastBlock := by
  decide +kernel

theorem witness_emptyTransfers :
    exhausted.sess = true ∧ counter exhausted ≤ 2 ^ 64 ∧ lastBlock.sess = true ∧ counter lastBlock < 2 ^ 64 := by
  decide +kernel

theorem witness_noSession :
    State.reset.sess = false ∧ (∃ t, exec .sessionClear session = .next t)
      ∧ ∃ t, step (placeCommand 1 { State.reset with wrmask := 0x3FF }) = .next t
          ∧ (placeCommand 1 { State.reset with wrmask := 0x3FF }).sess = false ∧ t.sess = true :=
  ⟨rfl, ⟨_, rfl⟩, _, rfl, rfl, rfl⟩

theorem witness_missingStaging :
    ({ session with wrmask := 0x1FF }).wrmask ≠ 0x3FF ∧ session.sess = true
      ∧ ¬ (({ session with wrmask := 0x1FF }).wrmask.getLsbD 8 = true
        ∧ ({ session with wrmask := 0x1FF }).wrmask.getLsbD 9 = true) := by decide

theorem witness_longPartialBlock : session.sess = true ∧ 64 < 65 := by decide

theorem witness_smallBuffer :
    ({ session with srcLen := 63 }).sess = true ∧ ({ session with srcLen := 63 }).srcLen.toNat < 64 * 1
      ∧ (64 : Nat) ≤ 64 ∧ ({ session with dstLen := 63 }).dstLen.toNat < 64 := by decide

/-- One byte past the end, for both commands. -/
theorem witness_addressOverrun :
    let s := { session with srcAddr := 0xFFFFFFC1 }
    s.sess = true ∧ 64 ≤ s.srcLen.toNat ∧ 64 ≤ s.dstLen.toNat ∧ 0 < 64 ∧ 2 ^ 32 < s.srcAddr.toNat + 64 ∧ 64 = 64 * 1 := by
  decide

/-- Ranges that share one byte, for both commands. -/
theorem witness_overlap :
    let s := { session with dstAddr := 0x103F }
    s.sess = true ∧ 64 ≤ s.srcLen.toNat ∧ 64 ≤ s.dstLen.toNat ∧ 0 < 64 ∧ s.srcAddr.toNat + 64 ≤ 2 ^ 32
      ∧ s.dstAddr.toNat + 64 ≤ 2 ^ 32 ∧ s.srcAddr ≠ s.dstAddr
      ∧ InRange s.srcAddr.toNat 64 0x103F ∧ InRange s.dstAddr.toNat 64 0x103F := by decide

theorem witness_exhausted :
    Transferable (64 * 1) 0 { exhausted with exh := false, ctr := 0 } ∧ 2 ^ 64 < counter exhausted + 1
      ∧ Transferable 0 0 { exhausted with exh := false, ctr := 0 } ∧ (0 : Nat) ≤ 64 := by decide +kernel

theorem witness_counterStartsAnew :
    (∃ t, exec .sessionInit { exhausted with wrmask := 0x3FF } = .next t ∧ t.err = .none)
      ∧ (∃ t, exec .setNonce { exhausted with wrmask := 0x300 } = .next t ∧ t.err = .none)
      ∧ ∃ t, exec .sessionClear exhausted = .next t ∧ t.err = .none :=
  ⟨⟨_, rfl, rfl⟩, ⟨_, rfl, rfl⟩, _, rfl, rfl⟩

theorem witness_counterLowered :
    ∃ t, step (placeCommand 0x00000006 lastBlock) = .next t ∧ counter t < counter (placeCommand 0x00000006 lastBlock) := by
  obtain ⟨t, ht, hp⟩ := answers_next (p := fun t => decide (counter t < counter (placeCommand 0x00000006 lastBlock)))
    (show answers (step (placeCommand 0x00000006 lastBlock)) _ = true by decide +kernel)
  exact ⟨t, ht, of_decide_eq_true hp⟩

theorem witness_failedChecks :
    ∃ t, EngineDue (inFlight 0x00004105) ∧ step (inFlight 0x00004105) = .next t ∧ t.err ≠ .none ∧ t.err ≠ .bus :=
  ⟨_, by decide, rfl, by decide, by decide⟩

theorem witness_busError :
    let s := { session with platform := highMemory }
    Transferable (64 * 1) 1 s ∧ ¬ AllAdmitted (64 * 1) s ∧ Transferable 1 1 s ∧ ¬ AllAdmitted 1 s := by decide +kernel

theorem witness_faulted :
    faulted.fault = true ∧ faulted.busy = false ∧ (∃ t, step faulted = .next t) ∧ 0x4C % 4 = 0 ∧ 0x4C ≤ 0xFC :=
  ⟨rfl, rfl, ⟨_, rfl⟩, by decide, by decide⟩

theorem witness_counterAfter :
    ∃ t u v, exec (.processBlocks 1) topSession = .next t ∧ t.err = .none ∧ counter u = counter t
      ∧ exec (.processBytes 64) u = .next v ∧ v.err = .none := by
  obtain ⟨t, ht, hp⟩ := answers_next (p := fun t => t.err == .none && answers (exec (.processBytes 64) t) (·.err == .none))
    (show answers (exec (.processBlocks 1) topSession) _ = true by decide +kernel)
  rw [Bool.and_eq_true] at hp
  obtain ⟨v, hv, hp'⟩ := answers_next hp.2
  exact ⟨t, t, v, ht, by simpa using hp.1, rfl, hv, by simpa using hp'⟩

theorem witness_failedCounter :
    ∃ t, exec (.processBlocks 2) session = .next t ∧ t.err ≠ .none ∧ t.err ≠ .bus := by
  obtain ⟨t, ht, hp⟩ := answers_next (p := fun t => t.err != .none && t.err != .bus)
    (show answers (exec (.processBlocks 2) session) _ = true by decide +kernel)
  rw [Bool.and_eq_true] at hp
  exact ⟨t, ht, by simpa using hp.1, by simpa using hp.2⟩

/-- A command run twice, the second time from its own output: every hypothesis of DecryptionUndoesEncryption. -/
def decryptsInPlace (i : Instr) (s : State) : Bool :=
  answers (exec i s) fun t => t.err == .none && memWf s.mem && memWf t.mem
    && answers (exec i { s with mem := t.mem, srcAddr := s.dstAddr }) (·.err == .none)

theorem witness_decryption (i : Instr) (h : i = .processBlocks 1 ∨ i = .processBytes 64) :
    ∃ t v, exec i session = .next t ∧ t.err = .none ∧ MemoryCanonical session
      ∧ MemoryCanonical { session with mem := t.mem, srcAddr := session.dstAddr }
      ∧ counter { session with mem := t.mem, srcAddr := session.dstAddr } = counter session
      ∧ (∀ p, p < 64 → memRead ({ session with mem := t.mem, srcAddr := session.dstAddr }).mem
          (({ session with mem := t.mem, srcAddr := session.dstAddr }).srcAddr.toNat + p)
            = memRead t.mem (session.dstAddr.toNat + p))
      ∧ exec i { session with mem := t.mem, srcAddr := session.dstAddr } = .next v ∧ v.err = .none := by
  have hall : decryptsInPlace (.processBlocks 1) session = true ∧ decryptsInPlace (.processBytes 64) session = true := by
    decide +kernel
  have hd : decryptsInPlace i session = true := by rcases h with rfl | rfl <;> [exact hall.1; exact hall.2]
  obtain ⟨t, ht, hp⟩ := answers_next hd
  simp only [Bool.and_eq_true, beq_iff_eq] at hp
  obtain ⟨v, hv, hp'⟩ := answers_next hp.2
  exact ⟨t, v, ht, hp.1.1.1, hp.1.1.2, hp.1.2, rfl, fun _ _ => rfl, hv, by simpa using hp'⟩

theorem witness_chunking :
    let s := { session with srcLen := 128, dstLen := 128 }
    MemoryCanonical s ∧ ∃ t, exec (.processBlocks (1 + 1)) s = .next t ∧ t.err = .none := by
  refine ⟨by decide, ?_⟩
  obtain ⟨t, ht, hp⟩ := answers_next (p := (·.err == .none))
    (show answers (exec (.processBlocks (1 + 1)) { session with srcLen := 128, dstLen := 128 }) _ = true by
      decide +kernel)
  exact ⟨t, ht, by simpa using hp⟩

theorem witness_keystreamAgrees :
    let s := { session with ctr := 5 }
    let r := { session with indexLo := 5 }
    MemoryCanonical s ∧ r.sess = true ∧ r.skey = s.skey ∧ r.snonce = s.snonce
      ∧ r.indexHi ++ r.indexLo = BitVec.ofNat 64 (counter s + 0) ∧ (∃ k, exec .keystream r = .next k)
      ∧ (∃ t, exec (.processBlocks 1) s = .next t ∧ t.err = .none) ∧ 0 < 1
      ∧ ∃ t, exec (.processBytes 64) s = .next t ∧ t.err = .none := by
  refine ⟨by decide, rfl, rfl, rfl, by decide +kernel, ⟨_, rfl⟩, ?_, by decide, ?_⟩
  · obtain ⟨t, ht, hp⟩ := answers_next (p := (·.err == .none))
      (show answers (exec (.processBlocks 1) { session with ctr := 5 }) _ = true by decide +kernel)
    exact ⟨t, ht, by simpa using hp⟩
  · obtain ⟨t, ht, hp⟩ := answers_next (p := (·.err == .none))
      (show answers (exec (.processBytes 64) { session with ctr := 5 }) _ = true by decide +kernel)
    exact ⟨t, ht, by simpa using hp⟩

theorem witness_wordOperations : 18 ∈ [7, 9, 13, 18] ∧ 31 < 32 := by decide

theorem witness_serialized : 15 < 16 ∧ 3 < 4 := by decide

theorem witness_keystreamDepends :
    ∃ t u, session.sess = true ∧ exhausted.sess = true ∧ session.skey = exhausted.skey
      ∧ session.snonce = exhausted.snonce ∧ session.indexLo = exhausted.indexLo ∧ session.indexHi = exhausted.indexHi
      ∧ exec .keystream session = .next t ∧ exec .keystream exhausted = .next u :=
  ⟨_, _, rfl, rfl, rfl, rfl, rfl, rfl, rfl, rfl⟩

theorem witness_registerWrites :
    (inFlight 0).busy = true ∧ faulted.fault = true ∧ session.busy = false ∧ session.fault = false
      ∧ 0x30 % 4 = 0 ∧ 0x34 % 4 = 0 ∧ 0x50 % 4 = 0 ∧ 0x50 ≤ 0xFC := by decide

theorem witness_registerReads :
    (0x54 ≤ 0x54 ∧ 0x54 ≤ 0x7C) ∧ (0x54 ≤ 0x7C ∧ 0x7C ≤ 0x7C) ∧ (0xC0 ≤ 0xC0 ∧ 0xC0 ≤ 0xFC)
      ∧ (0xC0 ≤ 0xFC ∧ 0xFC ≤ 0xFC) := by decide

theorem witness_oddAccess :
    ¬ (16 = 32 ∧ 0x4C % 4 = 0 ∧ 0x4C ≤ 0xFC) ∧ ¬ (32 = 32 ∧ 0x4E % 4 = 0 ∧ 0x4E ≤ 0xFC)
      ∧ ¬ (32 = 32 ∧ 0x100 % 4 = 0 ∧ 0x100 ≤ 0xFC) ∧ (32 = 32 ∧ 0xFC % 4 = 0 ∧ 0xFC ≤ 0xFC) := by decide

theorem witness_werr :
    (∃ t, step { waiting 0 [.poll] with werr := true } = .next t ∧ ({ waiting 0 [.poll] with werr := true }).werr = true)
      ∧ (∃ t, step (waiting 0 [.wr 32 0x38 7]) = .next t ∧ (waiting 0 [.wr 32 0x38 7]).werr = false ∧ t.werr = true)
      ∧ ¬ EngineDue (waiting 0 [.wr 32 0xFC 7]) ∧ (waiting 0 [.wr 32 0xFC 7]).host = .wr 32 0xFC 7 :: []
      ∧ 0xFC % 4 = 0 ∧ 0xFC ≤ 0xFC ∧ (waiting 0 [.wr 32 0xFC 7]).busy = true
      ∧ session.busy = false ∧ session.fault = false ∧ (0x10 : Word).getLsbD 4 = true :=
  ⟨⟨_, rfl, rfl⟩, ⟨_, rfl, rfl, rfl⟩, by decide, rfl, by decide, by decide, rfl, rfl, rfl, by decide⟩

theorem witness_hostStepKey :
    ∃ t, ¬ EngineDue { session with host := [.rd 32 0x00] } ∧ step { session with host := [.rd 32 0x00] } = .next t :=
  ⟨_, by decide, rfl⟩

/-- The last byte of the destination races, the byte after it does not. -/
theorem witness_race :
    (inFlight 0x00000104).busy = true ∧ MemoryCanonical (inFlight 0x00000104)
      ∧ decode (inFlight 0x00000104).pend = .command (.processBlocks 1) ∧ 64 = 64 * 1
      ∧ (InRange 0x203F 1 0x203F ∧ InRange (inFlight 0x00000104).dstAddr.toNat 64 0x203F)
      ∧ (¬ ∃ b, InRange 0x2040 1 b
          ∧ (InRange (inFlight 0x00000104).srcAddr.toNat 64 b ∨ InRange (inFlight 0x00000104).dstAddr.toNat 64 b))
      ∧ 0x2040 + 1 ≤ 2 ^ 32 ∧ admits (inFlight 0x00000104) .write 0x2040 = true
      ∧ admits (inFlight 0x00000104) .read 0x2040 = true
      ∧ decode (inFlight 0x00000105).pend = .command (.processBytes 1) := by
  refine ⟨rfl, by decide, by decide, rfl, by decide, ?_, by decide, by decide +kernel, by decide +kernel, by decide⟩
  rintro ⟨b, hb, hr⟩
  have hs : (inFlight 0x00000104).srcAddr.toNat = 0x1000 := rfl
  have hd : (inFlight 0x00000104).dstAddr.toNat = 0x2000 := rfl
  rw [hs, hd] at hr
  unfold InRange at hb hr
  omega

theorem witness_littleEndian : 36 + 4 ≤ (List.replicate 40 (0 : Byte)).length := by decide

/-- The last byte of the address space. -/
theorem witness_hostWrite :
    MemoryCanonical session ∧ session.busy = false ∧ 0xFFFFFFFF + ([7] : List Byte).length ≤ 2 ^ 32
      ∧ ∀ p, p < ([7] : List Byte).length →
        admits session .write (0xFFFFFFFF + p) = true ∧ admits session .read (0xFFFFFFFF + p) = true := by
  decide +kernel

theorem witness_unadmitted :
    session.busy = false ∧ 1 < ([7, 8] : List Byte).length ∧ 2 ^ 32 ≤ 0xFFFFFFFF + 1
      ∧ admits { session with platform := highMemory } .write (0x1FFE + 1) = false
      ∧ admits { session with platform := highMemory } .read (0x1FFE + 1) = false := by decide +kernel

theorem witness_reset :
    session.busy = false ∧ decode (inFlight 0x00000104).pend = .command (.processBlocks 1)
      ∧ ¬ InRange (inFlight 0x00000104).dstAddr.toNat (64 * 1) 0x2040
      ∧ decode (inFlight 0x00000405).pend = .command (.processBytes 4)
      ∧ ¬ InRange (inFlight 0x00000405).dstAddr.toNat 4 0x2004
      ∧ ∀ n, decode (inFlight 0x00000003).pend ≠ .command (.processBlocks n)
        ∧ decode (inFlight 0x00000003).pend ≠ .command (.processBytes n) := by
  have hk : decode (inFlight 0x00000003).pend = .command .keystream := by decide
  refine ⟨rfl, by decide, by decide, by decide, by decide, fun n => ?_⟩
  rw [hk]
  exact ⟨by simp, by simp⟩

/-- A step from a state that meets every invariant. -/
theorem witness_step : Inv (inFlight 0x00000006) ∧ ∃ t, step (inFlight 0x00000006) = .next t :=
  ⟨by decide, _, rfl⟩

theorem witness_destination :
    (∃ t, exec .keystream session = .next t) ∧ streamNeed .keystream = none
      ∧ (∃ t, exec (.processBytes 4) session = .next t) ∧ streamNeed (.processBytes 4) = some 4
      ∧ ¬ InRange session.dstAddr.toNat 4 0x2004 := by
  refine ⟨⟨_, rfl⟩, rfl, ?_, rfl, by decide⟩
  obtain ⟨t, ht, _⟩ := exec_effect (.processBytes 4) session
  exact ⟨t, ht⟩

end Sys2Proof.Tests
end

section
/-! PROOFS. The rules of the state: what the register window reads and writes (10_state R38, R39), the reset values
(R44), and what changes the session key (R23). -/

namespace Sys2Proof.Machine

/-! ### The register window -/

/-- 20_memory R68's window accesses, as a proposition. -/
theorem windowAccess_iff (width off : Nat) :
    windowAccess width off = true ↔ width = 32 ∧ off % 4 = 0 ∧ off ≤ 0xFC := by
  simp [windowAccess, and_assoc]

theorem hostAct_rd_eq (width off : Nat) (s : State) :
    hostAct (.rd width off) s
      = if width = 32 ∧ off % 4 = 0 ∧ off ≤ 0xFC then .next (see (.reg off (regRead off s)) s)
        else .fault .hostAccess := by
  simp only [hostAct, hostRead, windowAccess_iff]

theorem hostAct_wr_eq (width off : Nat) (v : Word) (s : State) :
    hostAct (.wr width off v) s
      = if width = 32 ∧ off % 4 = 0 ∧ off ≤ 0xFC then .next (regWrite off v s) else .fault .hostAccess := by
  simp only [hostAct, hostWrite, windowAccess_iff]

/-- From 0x50 on the window holds only WRMASK and KS0-KS15, both read-only (10_state R37). -/
theorem regAt_cases_of_high (off : Nat) (h : 0x50 ≤ off) :
    regAt off = some .wrmask ∨ (∃ i, regAt off = some (.ks i)) ∨ regAt off = none := by
  unfold regAt
  iterate 12 rw [if_neg (by omega)]
  split
  · exact .inl rfl
  · split
    · exact .inr (.inl ⟨_, rfl⟩)
    · exact .inr (.inr rfl)

/-- The offsets after WRMASK and after KS15 are reserved (10_state R36). -/
theorem regAt_reserved (off : Nat) (h : (0x54 ≤ off ∧ off ≤ 0x7C) ∨ 0xC0 ≤ off) : regAt off = none := by
  have hks : ¬ (decide (0x80 ≤ off) && decide (off < 0xC0)) = true := by
    rw [Bool.and_eq_true, decide_eq_true_iff, decide_eq_true_iff]
    omega
  unfold regAt
  iterate 13 rw [if_neg (by omega)]
  rw [if_neg hks]

/-- WRMASK's register reads its ten bits and zeros above them (10_state R28). -/
theorem toNat_wrmaskWord (s : State) : (wrmaskWord s).toNat = s.wrmask.toNat :=
  (BitVec.toNat_append (0 : BitVec 22) s.wrmask).trans (by simp)

theorem regRead_of_regAt_none {off : Nat} (h : regAt off = none) (s : State) : regRead off s = 0 := by
  simp [regRead, h]

@[simp] theorem regRead_regOffset (r : Reg) (s : State) : regRead (regOffset r) s = readReg r s := by
  simp [regRead, regAt_regOffset]

theorem regWrite_of_dropped {s : State} (h : s.busy = true ∨ s.fault = true) (off : Nat) (v : Word) :
    regWrite off v s = { s with werr := true } := by
  rcases h with h | h <;> simp [regWrite, h]

/-! The write rules of an idle block without a fault. -/

section Accepting
variable {s : State} (hbusy : s.busy = false) (hfault : s.fault = false)
include hbusy hfault

theorem regWrite_regOffset (r : Reg) (v : Word) : regWrite (regOffset r) v s = writeReg r v s := by
  simp [regWrite, hbusy, hfault, regAt_regOffset]

theorem regWrite_of_high (off : Nat) (v : Word) (h : 0x50 ≤ off) : regWrite off v s = s := by
  rcases regAt_cases_of_high off h with hr | ⟨_, hr⟩ | hr <;> simp [regWrite, hbusy, hfault, hr, writeReg]

end Accepting

/-- Settles O37: each named offset is its register's `regOffset`, so the write is that register's `writeReg`. -/
theorem registerWritesFollowTheMap : Obligations.RegisterWritesFollowTheMap := by
  refine ⟨fun s off v h => regWrite_of_dropped h off v, fun s v hbusy hfault => ?_,
    fun s width off v => hostAct_wr_eq width off v s⟩
  have write (r : Reg) : regWrite (regOffset r) v s = writeReg r v s := regWrite_regOffset hbusy hfault r v
  refine ⟨fun i => write (.key i), write (.nonce 0), write (.nonce 1), write .indexLo, write .indexHi,
    write .srcAddr, write .dstAddr, write .srcLen, write .dstLen, write .cmd, write .status, fun off _ h => ?_⟩
  rcases h with rfl | rfl | h
  · exact write .ctrLo
  · exact write .ctrHi
  · exact regWrite_of_high hbusy hfault off v h

/-- Settles O38: each named offset is its register's `regOffset`, so the read is that register's `readReg`. -/
theorem registerReadsFollowTheMap : Obligations.RegisterReadsFollowTheMap := by
  refine ⟨fun s => ?_, fun s width off => hostAct_rd_eq width off s⟩
  have read (r : Reg) : regRead (regOffset r) s = readReg r s := regRead_regOffset r s
  have hwrmask : (regRead 0x50 s).toNat = s.wrmask.toNat :=
    (congrArg BitVec.toNat (read .wrmask)).trans (toNat_wrmaskWord s)
  exact ⟨fun i => read (.key i), read (.nonce 0), read (.nonce 1), read .indexLo, read .indexHi, read .ctrLo,
    read .ctrHi, read .srcAddr, read .dstAddr, read .srcLen, read .dstLen, read .cmd, read .status, hwrmask,
    fun i => read (.ks i), fun off h => regRead_of_regAt_none (regAt_reserved off (by omega)) s⟩

/-! ### Reset values -/

theorem readReg_reset (r : Reg) : readReg r State.reset = 0 := by
  cases r with
  | nonce j => exact Vector.getElem_replicate j.isLt
  | ks i => exact Vector.getElem_replicate i.isLt
  | _ => rfl

theorem regRead_reset (off : Nat) : regRead off State.reset = 0 := by
  cases h : regAt off with
  | none => exact regRead_of_regAt_none h _
  | some r => simp [regRead, h, readReg_reset]

/-- An idle block abandons no transfer (70_reset R211). -/
theorem memAfterReset_of_idle {s : State} (h : s.busy = false) : memAfterReset s = s.mem := by
  simp [memAfterReset, activeNeed, h]

/-- Settles O48: the elements by the definition of State.reset, the offsets register by register. -/
theorem resetValues : Obligations.ResetValues :=
  ⟨rfl, rfl, rfl, rfl, rfl, rfl, rfl, rfl, rfl, rfl, rfl, rfl, rfl, rfl, rfl, rfl, rfl, rfl, rfl, regRead_reset,
    fun _ h => memAfterReset_of_idle h⟩

/-! ### The session key and nonce -/

/-- No register shows the session key or nonce. -/
theorem regRead_sessionKey (off : Nat) (s : State) (k : Vector Word 8) (n : Vector Word 2) :
    regRead off { s with skey := k, snonce := n } = regRead off s := by
  unfold regRead
  cases regAt off with
  | none => rfl
  | some r => cases r <;> rfl

/-- No register write changes the session key or nonce. -/
theorem RegWriteEffect.sessionKey {off : Nat} {v : Word} {s t : State} (h : RegWriteEffect off v s t) :
    t.skey = s.skey ∧ t.snonce = s.snonce := by
  cases h with
  | dropped => exact ⟨rfl, rfl⟩
  | accepted => exact ⟨acceptCommand_skey v s, acceptCommand_snonce v s⟩
  | cleared => exact ⟨rfl, rfl⟩
  | stored _ h => exact ⟨(congrArg State.skey h :), (congrArg State.snonce h :)⟩

/-- The commands keep the session key and nonce, but for the three that R23 names. -/
theorem CommandEffect.sessionKey {i : Instr} {s t : State} (h : CommandEffect i s t) :
    (t.skey = s.skey ∧ t.snonce = s.snonce)
      ∨ (i = .sessionInit ∧ t.skey = s.key ∧ t.snonce = s.nonce)
      ∨ (i = .setNonce ∧ t.skey = s.skey ∧ t.snonce = s.nonce)
      ∨ (i = .sessionClear ∧ t.skey = Vector.replicate 8 0 ∧ t.snonce = Vector.replicate 2 0) := by
  cases h with
  | error | nop | keystream | bus => exact .inl ⟨rfl, rfl⟩
  | stream _ _ _ _ _ hframe => exact .inl ⟨(congrArg State.skey hframe :), (congrArg State.snonce hframe :)⟩
  | sessionInit hi => exact .inr (.inl ⟨hi, rfl, rfl⟩)
  | setNonce hi => exact .inr (.inr (.inl ⟨hi, rfl, rfl⟩))
  | sessionClear hi => exact .inr (.inr (.inr ⟨hi, rfl, rfl⟩))

/-- Of the host's accesses only reset changes the session key or nonce. -/
theorem HostEffect.sessionKey {a : HostAct} {s t : State} (h : HostEffect a s t) :
    (t.skey = s.skey ∧ t.snonce = s.snonce)
      ∨ (a = .reset ∧ t.skey = Vector.replicate 8 0 ∧ t.snonce = Vector.replicate 2 0) := by
  cases h with
  | saw | checked | polled | stored => exact .inl ⟨rfl, rfl⟩
  | wrote off v => exact .inl (regWrite_effect off v s).sessionKey
  | reset ha => exact .inr ⟨ha, rfl, rfl⟩

/-- One step's session key and nonce: kept, or changed by one of the commands R23 names or by reset. -/
theorem step_sessionKey {s t : State} (h : step s = .next t) :
    (t.skey = s.skey ∧ t.snonce = s.snonce)
      ∨ (EngineDue s ∧ decode s.pend = .command .sessionInit ∧ t.skey = s.key ∧ t.snonce = s.nonce)
      ∨ (EngineDue s ∧ decode s.pend = .command .setNonce ∧ t.skey = s.skey ∧ t.snonce = s.nonce)
      ∨ (((EngineDue s ∧ decode s.pend = .command .sessionClear) ∨ ∃ rest, s.host = .reset :: rest)
          ∧ t.skey = Vector.replicate 8 0 ∧ t.snonce = Vector.replicate 2 0) := by
  by_cases hdue : EngineDue s
  · rcases step_engine_effect hdue h with ⟨i, hi, heffect⟩ | rfl
    · rcases heffect.sessionKey with hkept | ⟨rfl, hnew⟩ | ⟨rfl, hnew⟩ | ⟨rfl, hzero⟩
      · exact .inl hkept
      · exact .inr (.inl ⟨hdue, hi, hnew⟩)
      · exact .inr (.inr (.inl ⟨hdue, hi, hnew⟩))
      · exact .inr (.inr (.inr ⟨.inl ⟨hdue, hi⟩, hzero⟩))
    · exact .inl ⟨rfl, rfl⟩
  · rcases step_host_effect hdue h with rfl | ⟨a, rest, hhost, hact⟩
    · exact .inl ⟨rfl, rfl⟩
    · rcases (hostAct_effect hact).sessionKey with hkept | ⟨rfl, hzero⟩
      · exact .inl hkept
      · exact .inr (.inr (.inr ⟨.inr ⟨rest, hhost⟩, hzero⟩))

theorem exec_sessionClear_sessionKey {s t : State} (h : exec .sessionClear s = .next t) :
    t.skey = Vector.replicate 8 0 ∧ t.snonce = Vector.replicate 2 0 := by
  cases h
  exact ⟨rfl, rfl⟩

/-- Settles O54: a step is the engine's or the host's, and each effect says what it does to SKEY and SNONCE. -/
theorem onlySessionCommandsChangeTheSessionKey : Obligations.OnlySessionCommandsChangeTheSessionKey :=
  ⟨fun _ _ => step_sessionKey, fun s off k n => regRead_sessionKey off s k n,
    fun s off v => (regWrite_effect off v s).sessionKey, fun _ _ => exec_sessionClear_sessionKey,
    fun _ => ⟨rfl, rfl⟩, rfl, rfl⟩

end Sys2Proof.Machine
end


section
/-! PROOFS. Which host accesses to the register window fault (20_memory R68). -/

namespace Sys2Proof.Machine

theorem hostAct_rd_eq_hostAccess_iff (width off : Nat) (s : State) :
    hostAct (.rd width off) s = .fault .hostAccess ↔ ¬ (width = 32 ∧ off % 4 = 0 ∧ off ≤ 0xFC) := by
  rw [hostAct_rd_eq]
  exact Ne.ite_eq_right_iff nofun

theorem hostAct_wr_eq_hostAccess_iff (width off : Nat) (v : Word) (s : State) :
    hostAct (.wr width off v) s = .fault .hostAccess ↔ ¬ (width = 32 ∧ off % 4 = 0 ∧ off ≤ 0xFC) := by
  rw [hostAct_wr_eq]
  exact Ne.ite_eq_right_iff nofun

/-- Settles O41: a window access branches on R68's condition alone, and the branch that meets it does not fault. -/
theorem oddWindowAccessIsHostAccess : Obligations.OddWindowAccessIsHostAccess :=
  fun s width off v =>
    ⟨(hostAct_rd_eq_hostAccess_iff width off s).symm, (hostAct_wr_eq_hostAccess_iff width off v s).symm⟩

end Sys2Proof.Machine
end

section
/-! PROOFS. Which words are ILLEGAL (30_encoding R95) and what the engine's step does with one (41_commands R149). -/

namespace Sys2Proof

theorem toNat_opField (w : Word) : (opField w).toNat = w.toNat % 256 :=
  BitVec.extractLsb'_toNat 0 8 w

theorem toNat_argField (w : Word) : (argField w).toNat = w.toNat / 256 := by
  rw [argField, BitVec.extractLsb'_toNat, Nat.shiftRight_eq_div_pow]
  exact Nat.mod_eq_of_lt (by omega)

theorem argField_ne_zero_iff (w : Word) : argField w ≠ 0 ↔ w.toNat / 256 ≠ 0 := by
  rw [← toNat_argField, Ne, BitVec.toNat_eq]
  rfl

theorem decodeZ_isIllegal_iff (i : Instr) (op : BitVec 8) (arg : BitVec 24) :
    (∃ why, decodeZ i op arg = .illegal why) ↔ arg ≠ 0 := by
  unfold decodeZ
  split
  next h => simp [h]
  next h => exact ⟨fun _ => h, fun _ => ⟨_, rfl⟩⟩

/-- Decode tests the opcodes 0x00..0x06 in turn: the CMD-Z ones leave the question to ARG, the two PROCESS_* ones are
commands, and an opcode that is none of them is 0x07 or above. -/
theorem decode_isIllegal_iff_fields (w : Word) :
    (∃ why, decode w = .illegal why) ↔
      7 ≤ (opField w).toNat ∨ ((opField w).toNat ∈ [0, 1, 2, 3, 6] ∧ argField w ≠ 0) := by
  unfold decode
  dsimp only
  iterate 4
    split
    next h => rw [decodeZ_isIllegal_iff, h]; simp
  iterate 2
    split
    next h => rw [h]; simp
  split
  next h => rw [decodeZ_isIllegal_iff, h]; simp
  have hop : 7 ≤ (opField w).toNat := by bv_omega
  exact ⟨fun _ => .inl hop, fun _ => ⟨_, rfl⟩⟩

/-- 30_encoding R95: exactly the reserved encodings are ILLEGAL. -/
theorem decode_isIllegal_iff (w : Word) :
    (∃ why, decode w = .illegal why) ↔
      7 ≤ w.toNat % 256 ∨ (w.toNat % 256 ∈ [0, 1, 2, 3, 6] ∧ w.toNat / 256 ≠ 0) := by
  rw [decode_isIllegal_iff_fields, toNat_opField, argField_ne_zero_iff]

end Sys2Proof

namespace Sys2Proof.Machine

theorem step_of_engineDue {s : State} (h : EngineDue s) : step s = engineStep s := by
  have hturn : engineTurn s = true := (engineTurn_iff s).2 h
  simp [step, machineStep, hturn]

theorem engineStep_of_illegal {s : State} {why : IllegalReason} (h : decode s.pend = .illegal why) :
    engineStep s = .next (complete .illegal s) := by
  simp [engineStep, h, execIllegal, raiseError]

/-- Once a command has ended without FAULT, the next CMD write is accepted (41_commands R140). -/
theorem regWrite_cmd_complete {s : State} (hfault : s.fault = false) (e : ErrorCode) (v : Word) :
    regWrite (regOffset .cmd) v (complete e s) = acceptCommand v (complete e s) :=
  regWrite_regOffset (complete_busy e s) hfault .cmd v

/-- Settles O4: the reserved words by the fields decode tests, the step by `complete .illegal`, which leaves the block
idle, so that a CMD write is an acceptance. -/
theorem reservedWordsEndWithEIllegal : Obligations.ReservedWordsEndWithEIllegal := by
  refine fun w => ⟨decode_isIllegal_iff w, ?_⟩
  rintro s hdue rfl ⟨why, hillegal⟩
  refine ⟨complete .illegal s, (step_of_engineDue hdue).trans (engineStep_of_illegal hillegal), rfl,
    fun hfault v => ?_⟩
  have hwrite : regWrite 0x48 v (complete .illegal s) = acceptCommand v (complete .illegal s) :=
    regWrite_cmd_complete hfault .illegal v
  rw [hwrite]
  exact ⟨acceptCommand_busy v _, acceptCommand_pend v _⟩

end Sys2Proof.Machine
end

section
/-! PROOFS. The Block Engine's word operations (40_block_engine R110-R112) and its output (R120, R121). -/

namespace Sys2Proof.Machine

theorem toNat_add32 (a b : Word) : (add32 a b).toNat = (a.toNat + b.toNat) % 2 ^ 32 :=
  BitVec.toNat_add a b

theorem add32_comm (a b : Word) : add32 a b = add32 b a :=
  BitVec.add_comm a b

theorem rotl_eq_rotateLeft (v : Word) {c : Nat} (hc : c < 32) : rotl v c = v.rotateLeft c :=
  (BitVec.rotateLeft_eq_rotateLeftAux_of_lt hc).symm

/-- 40_block_engine R111, for every amount below the width: bit `i` goes to bit `(i + c) mod 32`. -/
theorem getLsbD_rotl (v : Word) {c i : Nat} (hc : c < 32) (hi : i < 32) :
    (rotl v c).getLsbD ((i + c) % 32) = v.getLsbD i := by
  rw [rotl_eq_rotateLeft v hc, BitVec.getLsbD_rotateLeft_of_le hc]
  by_cases hwrap : i + c < 32
  · rw [Nat.mod_eq_of_lt hwrap]
    simp [hwrap]
  · have hpos : (i + c) % 32 = i + c - 32 := by omega
    have hlow : i + c - 32 < c := by omega
    have hback : 32 - c + (i + c - 32) = i := by omega
    simp [hpos, hlow, hback]

/-- Settles O30: addition and exclusive OR by the library's laws of bit vectors, the rotations as amounts below the
width. -/
theorem wordOperations : Obligations.WordOperations := by
  have amount_lt : ∀ c ∈ [7, 9, 13, 18], c < 32 := by decide
  refine ⟨fun a b => ⟨toNat_add32 a b, add32_comm a b⟩, fun v c hc i hi => getLsbD_rotl v (amount_lt c hc) hi,
    fun _ _ _ => BitVec.getLsbD_xor, fun _ _ _ => BitVec.getLsbD_xor, fun _ => ⟨BitVec.xor_self, BitVec.xor_zero⟩, ?_⟩
  decide

theorem getElem_feedForward (x s : Words16) (i : Nat) (hi : i < 16) : (feedForward x s)[i] = x[i] + s[i] :=
  Vector.getElem_ofFn hi

theorem getElem_serialize (w : Words16) (p : Nat) (hp : p < 64) :
    (serialize w)[p] = byteOf (w[p / 4]'(by omega)) (p % 4) :=
  Vector.getElem_ofFn hp

/-- 40_block_engine R121: byte `4 * i + k` of the block is byte `k` of word `i`. -/
theorem getElem_serialize_word (w : Words16) (i k : Nat) (hi : i < 16) (hk : k < 4) :
    (serialize w)[4 * i + k]'(by omega) = byteOf w[i] k := by
  have hword : (4 * i + k) / 4 = i := by omega
  have hbyte : (4 * i + k) % 4 = k := by omega
  rw [getElem_serialize]
  simp only [hword, hbyte]

/-- Settles O35: both outputs are given entry by entry, and position `4 * i + k` splits into word `i` and byte `k`. -/
theorem outputIsFeedForwardSerialized : Obligations.OutputIsFeedForwardSerialized :=
  ⟨getElem_feedForward, getElem_serialize_word⟩

end Sys2Proof.Machine
end

section
/-! PROOFS. NOP, the session commands and KEYSTREAM, each with its whole next state (41_commands R142-R145, R148), and
the acceptance of a command (R140). -/

namespace Sys2Proof.Machine

/-! ### The shared pieces -/

/-- STATUS after a success with EXH, WERR and FAULT 0: DONE, and SESS where there is a session (10_state R34). -/
theorem statusWord_complete_none {s : State} (hexh : s.exh = false) (hwerr : s.werr = false)
    (hfault : s.fault = false) :
    statusWord (complete .none s) = if s.sess = true then 0x00000006 else 0x00000002 := by
  simp only [statusWord, complete_err, complete_fault, complete_werr, complete_exh, complete_sess, complete_done,
    complete_busy, hexh, hwerr, hfault]
  cases s.sess <;> decide

/-- 30_encoding R95: a CMD-Z opcode with a non-zero ARG is ILLEGAL. -/
theorem decode_isIllegal_of_nonzeroArg {w : Word} (hop : w.toNat % 256 ∈ [0, 1, 2, 3, 6])
    (harg : w.toNat / 256 ≠ 0) : ∃ why, decode w = .illegal why :=
  (decode_isIllegal_iff w).2 (.inr ⟨hop, harg⟩)

/-! ### NOP -/

theorem exec_nop (s : State) : exec .nop s = .next (complete .none s) := rfl

/-- Settles O9: NOP is `complete .none`, and a word with NOP's opcode and an argument is a reserved one. -/
theorem nopChangesOnlyDoneAndErr : Obligations.NopChangesOnlyDoneAndErr := by
  refine ⟨by decide, exec_nop, fun w hop harg => decode_isIllegal_of_nonzeroArg (by simp [hop]) harg,
    _, exec_nop _, ?_⟩
  exact statusWord_complete_none (acceptCommand_exh 0 _) (acceptCommand_werr 0 _) (acceptCommand_fault 0 _)

/-! ### SESSION_INIT -/

theorem exec_sessionInit_of_staged {s : State} (h : s.wrmask = allStaged) :
    exec .sessionInit s = .next (complete .none (setCounter 0
      { s with skey := s.key, snonce := s.nonce, sess := true, wrmask := 0, ks := zeroKs })) := by
  rcases execSessionInit_cases s with ⟨hne, _⟩ | ⟨_, heq⟩
  · exact absurd h hne
  · exact heq

theorem exec_sessionInit_of_not_staged {s : State} (h : s.wrmask ≠ allStaged) :
    exec .sessionInit s = .next (complete .size s) := by
  rcases execSessionInit_cases s with ⟨_, heq⟩ | ⟨hall, _⟩
  · exact heq
  · exact absurd hall h

/-- Settles O10: the two sides of the WRMASK check; the example's ten writes from reset set all ten mask bits. -/
theorem sessionInitLatchesKeyAndNonce : Obligations.SessionInitLatchesKeyAndNonce := by
  refine ⟨by decide, fun s => exec_sessionInit_of_staged, fun s => exec_sessionInit_of_not_staged,
    _, exec_sessionInit_of_staged (by decide), rfl,
    (counter_complete _ _).trans (counter_setCounter 0 _ (Nat.zero_le _)), rfl, ?_⟩
  exact statusWord_complete_none rfl (by decide) (by decide)

/-! ### SET_NONCE -/

theorem extractLsb'_clearNonceStaged_nonce (m : BitVec 10) : (clearNonceStaged m).extractLsb' 8 2 = 0 := by
  have hmask : (0x0FF : BitVec 10).extractLsb' 8 2 = 0#2 := by decide
  rw [clearNonceStaged, BitVec.extractLsb'_and, hmask]
  exact BitVec.and_zero

theorem extractLsb'_clearNonceStaged_key (m : BitVec 10) :
    (clearNonceStaged m).extractLsb' 0 8 = m.extractLsb' 0 8 := by
  have hmask : (0x0FF : BitVec 10).extractLsb' 0 8 = BitVec.allOnes 8 := by decide
  rw [clearNonceStaged, BitVec.extractLsb'_and, hmask, BitVec.and_allOnes]

theorem exec_setNonce_of_staged {s : State} (hsess : s.sess = true) (h : nonceStaged s.wrmask = 0b11) :
    exec .setNonce s = .next (complete .none (setCounter 0
      { s with snonce := s.nonce, wrmask := clearNonceStaged s.wrmask, ks := zeroKs })) := by
  rcases execSetNonce_cases s with ⟨hno, _⟩ | ⟨_, hne, _⟩ | ⟨_, _, heq⟩
  · simp [hsess] at hno
  · exact absurd h hne
  · exact heq

theorem exec_setNonce_of_not_staged {s : State} (hsess : s.sess = true) (h : nonceStaged s.wrmask ≠ 0b11) :
    exec .setNonce s = .next (complete .size s) := by
  rcases execSetNonce_cases s with ⟨hno, _⟩ | ⟨_, _, heq⟩ | ⟨_, hboth, _⟩
  · simp [hsess] at hno
  · exact heq
  · exact absurd hboth h

/-- The commands that need a session end with E_NOSESSION when there is none (60_exceptions R183). -/
theorem exec_of_no_session {s : State} (h : s.sess = false) (n length : Nat) {i : Instr}
    (hi : i ∈ [Instr.setNonce, .keystream, .processBlocks n, .processBytes length]) :
    exec i s = .next (complete .noSession s) := by
  simp only [List.mem_cons, List.not_mem_nil, or_false] at hi
  rcases hi with rfl | rfl | rfl | rfl
  · simp [exec, execSetNonce, h, raiseError]
  · simp [exec, execKeystream, h, raiseError]
  · simp [exec, execProcessBlocks, h, raiseError]
  · simp [exec, execProcessBytes, h, raiseError]

theorem exec_setNonce_of_no_session {s : State} (h : s.sess = false) :
    exec .setNonce s = .next (complete .noSession s) :=
  exec_of_no_session h 0 0 (by simp)

/-- Settles O11: the latch leaves WRMASK masked to its key bits; the other two cases are error entries. -/
theorem setNonceLatchesNonce : Obligations.SetNonceLatchesNonce := by
  refine ⟨by decide, fun s hsess h => ?_, fun s => exec_setNonce_of_no_session,
    fun s => exec_setNonce_of_not_staged⟩
  exact ⟨clearNonceStaged s.wrmask, exec_setNonce_of_staged hsess h, extractLsb'_clearNonceStaged_nonce _,
    extractLsb'_clearNonceStaged_key _⟩

/-! ### KEYSTREAM -/

theorem exec_keystream_of_session {s : State} (h : s.sess = true) :
    exec .keystream s = .next (complete .none { s with ks := blockWords s.skey s.snonce (blockIndex s) }) := by
  rcases execKeystream_cases s with ⟨hno, _⟩ | ⟨_, heq⟩
  · simp [h] at hno
  · exact heq

theorem exec_keystream_of_no_session {s : State} (h : s.sess = false) :
    exec .keystream s = .next (complete .noSession s) :=
  exec_of_no_session h 0 0 (by simp)

/-- Settles O12: both sides of the session check; the spec's words by evaluating one block. -/
theorem keystreamWritesTheIndexedBlock : Obligations.KeystreamWritesTheIndexedBlock := by
  refine ⟨by decide, fun s => exec_keystream_of_session, fun s => exec_keystream_of_no_session, ?_⟩
  decide +kernel

/-! ### SESSION_CLEAR -/

theorem exec_sessionClear (s : State) :
    exec .sessionClear s = .next (complete .none (setCounter 0
      { s with skey := Vector.replicate 8 0, snonce := Vector.replicate 2 0, sess := false,
               key := Vector.replicate 8 0, nonce := Vector.replicate 2 0, wrmask := 0, ks := zeroKs })) := rfl

theorem regRead_ctrLo_of_zero {s : State} (h : s.ctr = 0) : regRead 0x30 s = 0 := by
  have hread : regRead 0x30 s = s.ctr.extractLsb' 0 32 := regRead_regOffset .ctrLo s
  rw [hread, h]
  exact BitVec.extractLsb'_zero

theorem regRead_ctrHi_of_zero {s : State} (h : s.ctr = 0) : regRead 0x34 s = 0 := by
  have hread : regRead 0x34 s = s.ctr.extractLsb' 32 32 := regRead_regOffset .ctrHi s
  rw [hread, h]
  exact BitVec.extractLsb'_zero

/-- Settles O13: the next state is the cleared one, completed; it has no session, so each command that needs one only
replaces ERR in it. -/
theorem sessionClearZeroesTheSecrets : Obligations.SessionClearZeroesTheSecrets := by
  refine ⟨by decide, fun w hop harg => decode_isIllegal_of_nonzeroArg (by simp [hop]) harg,
    fun s => ⟨_, exec_sessionClear s, rfl, regRead_ctrLo_of_zero rfl, regRead_ctrHi_of_zero rfl, ?_, ?_⟩⟩
  · exact fun hwerr hfault => statusWord_complete_none rfl hwerr hfault
  · exact fun n i hi => exec_of_no_session rfl n n hi

/-! ### Acceptance -/

/-- Drawing a delay changes the model's own fields only. -/
theorem takeDelay_frame (s : State) :
    takeDelay s = { s with delay := (takeDelay s).delay, draws := (takeDelay s).draws,
                           schedule := (takeDelay s).schedule } := by
  unfold takeDelay
  split <;> rfl

/-- 41_commands R140: acceptance changes CMD, PEND, BUSY, DONE and ERR of the block. -/
theorem acceptCommand_frame (v : Word) (s : State) :
    acceptCommand v s
      = { s with cmd := v, pend := v, busy := true, done := false, err := .none, delay := (acceptCommand v s).delay,
                 draws := (acceptCommand v s).draws, schedule := (acceptCommand v s).schedule } :=
  takeDelay_frame _

/-- Settles O40: 0x48 is CMD's offset, so the write is dropped or is an acceptance. -/
theorem acceptedCommandIsInFlight : Obligations.AcceptedCommandIsInFlight := by
  refine ⟨fun s v hbusy hfault => ⟨acceptCommand v s, ?_, acceptCommand_frame v s⟩,
    fun s v h => regWrite_of_dropped h 0x48 v⟩
  exact regWrite_regOffset hbusy hfault .cmd v

end Sys2Proof.Machine
end

section
/-! PROOFS. What one step of the machine does, said once for the engine and the host together, and what follows for the
session (60_exceptions R183, R184) and for the codes 1-8 in general (R192). -/

namespace Sys2Proof.Machine

/-! ### The step -/

/-- The next states of a step: the effect of the command in flight, E_ILLEGAL, no change, or the effect of the host's next
access. -/
inductive StepEffect (s : State) : State → Prop
  | command (i : Instr) (t : State) (hdue : EngineDue s) (hi : decode s.pend = .command i) (h : CommandEffect i s t) :
      StepEffect s t
  | illegal (hdue : EngineDue s) : StepEffect s (complete .illegal s)
  | idle (hdue : ¬ EngineDue s) : StepEffect s s
  | host (a : HostAct) (rest : List HostAct) (t : State) (hdue : ¬ EngineDue s) (hhost : s.host = a :: rest)
      (h : HostEffect a { s with host := rest, delay := s.delay - 1 } t) : StepEffect s t

/-- If a step answers `t`, then `t` is one of StepEffect's. -/
theorem step_effect {s t : State} (h : step s = .next t) : StepEffect s t := by
  by_cases hdue : EngineDue s
  · rcases step_engine_effect hdue h with ⟨i, hi, heffect⟩ | rfl
    · exact .command i t hdue hi heffect
    · exact .illegal hdue
  · rcases step_host_effect hdue h with rfl | ⟨a, rest, hhost, hact⟩
    · exact .idle hdue
    · exact .host a rest t hdue hhost (hostAct_effect hact)

/-- When the engine's step is not due, the host makes its next access. -/
theorem step_of_host {s : State} (hdue : ¬ EngineDue s) {a : HostAct} {rest : List HostAct}
    (hhost : s.host = a :: rest) : step s = hostAct a { s with host := rest, delay := s.delay - 1 } := by
  have hturn : engineTurn s = false := Bool.eq_false_iff.2 (mt (engineTurn_iff s).1 hdue)
  simp [step, machineStep, hturn, hhost]

/-! ### What the host leaves alone -/

/-- No register write changes SESS, the counter or FAULT. -/
theorem RegWriteEffect.sess_counter_fault {off : Nat} {v : Word} {s t : State} (h : RegWriteEffect off v s t) :
    t.sess = s.sess ∧ counter t = counter s ∧ t.fault = s.fault := by
  cases h with
  | dropped | cleared => exact ⟨rfl, rfl, rfl⟩
  | accepted => simp [counter]
  | stored _ h => rw [h]; exact ⟨rfl, rfl, rfl⟩

/-- Of the host's accesses only reset changes SESS, the counter or FAULT. -/
theorem HostEffect.sess_counter_fault {a : HostAct} {s t : State} (h : HostEffect a s t) :
    (t.sess = s.sess ∧ counter t = counter s ∧ t.fault = s.fault) ∨ (a = .reset ∧ t = resetBlock s) := by
  cases h with
  | saw | checked | polled | stored => exact .inl ⟨rfl, rfl, rfl⟩
  | wrote off v => exact .inl (regWrite_effect off v s).sess_counter_fault
  | reset ha => exact .inr ⟨ha, rfl⟩

/-! ### The session -/

/-- Of the commands only a successful SESSION_INIT makes a session. -/
theorem CommandEffect.sess {i : Instr} {s t : State} (h : CommandEffect i s t) :
    t.sess = s.sess ∨ t.sess = false ∨ (i = .sessionInit ∧ t.err = .none) := by
  cases h with
  | error | nop | setNonce | keystream | bus => exact .inl rfl
  | sessionInit hi => exact .inr (.inr ⟨hi, rfl⟩)
  | sessionClear => exact .inr (.inl rfl)
  | stream _ _ _ _ _ hframe => exact .inl (congrArg State.sess hframe :)

/-- A step that makes a session is the engine's, with a successful SESSION_INIT (60_exceptions R183). -/
theorem step_makes_session {s t : State} (h : step s = .next t) (hs : s.sess = false) (ht : t.sess = true) :
    EngineDue s ∧ decode s.pend = .command .sessionInit ∧ t.err = .none := by
  cases step_effect h with
  | command i _ hdue hi heffect =>
    rcases heffect.sess with hkept | hnone | ⟨rfl, herr⟩
    · simp [hkept, hs] at ht
    · simp [hnone] at ht
    · exact ⟨hdue, hi, herr⟩
  | illegal | idle => simp [hs] at ht
  | host a rest _ _ hhost heffect =>
    rcases heffect.sess_counter_fault with ⟨hkept, -, -⟩ | ⟨-, rfl⟩
    · simp [hkept, hs] at ht
    · simp [State.reset] at ht

theorem exec_sessionClear_sess {s t : State} (h : exec .sessionClear s = .next t) : t.sess = false := by
  cases h
  rfl

/-- Settles O16: each of the four commands tests SESS first, and the effects of a step show what sets it. -/
theorem noSessionIsReported : Obligations.NoSessionIsReported :=
  ⟨fun _ h n _ hi => exec_of_no_session h n n hi, rfl, fun _ => rfl, fun _ _ => exec_sessionClear_sess,
    fun _ _ => step_makes_session⟩

/-- WRMASK[9:8] = 0b11 says that both bits are 1. -/
theorem nonceStaged_eq_iff (m : BitVec 10) :
    nonceStaged m = 0b11 ↔ m.getLsbD 8 = true ∧ m.getLsbD 9 = true := by
  have bit (k : Nat) (hk : k < 2) : (nonceStaged m).getLsbD k = m.getLsbD (8 + k) := by
    simp [nonceStaged, hk]
  constructor
  · intro h
    rw [h] at bit
    exact ⟨(bit 0 (by decide)).symm, (bit 1 (by decide)).symm⟩
  · rintro ⟨h8, h9⟩
    refine BitVec.eq_of_getLsbD_eq fun k hk => ?_
    rw [bit k hk]
    obtain rfl | rfl : k = 0 ∨ k = 1 := by omega
    · exact h8
    · exact h9

/-- Settles O17: the WRMASK checks of the two staging commands, R144's field read bit by bit. -/
theorem missingStagingIsReported : Obligations.MissingStagingIsReported :=
  fun s => ⟨exec_sessionInit_of_not_staged, fun hsess hbits =>
    exec_setNonce_of_not_staged hsess (mt (nonceStaged_eq_iff s.wrmask).1 hbits)⟩

/-! ### The codes 1-8 -/

/-- A command whose code is neither E_NONE nor E_BUS has only completed with it. -/
theorem CommandEffect.eq_complete_of_failed {i : Instr} {s t : State} (h : CommandEffect i s t)
    (hnone : t.err ≠ .none) (hbus : t.err ≠ .bus) : t = complete t.err s := by
  cases h with
  | error => rfl
  | nop | sessionInit | setNonce | keystream | sessionClear | stream => exact absurd rfl hnone
  | bus => exact absurd rfl hbus

/-- Settles O23: among the effects of an engine step only the error entries carry these codes. -/
theorem failedChecksChangeOnlyDoneAndErr : Obligations.FailedChecksChangeOnlyDoneAndErr := by
  intro s t hdue h hnone hbus
  rcases step_engine_effect hdue h with ⟨i, -, heffect⟩ | rfl
  · exact heffect.eq_complete_of_failed hnone hbus
  · rfl

end Sys2Proof.Machine
end

section
/-! PROOFS. The checks of PROCESS_BLOCKS and PROCESS_BYTES in their order (60_exceptions R185-R189, R191). -/

namespace Sys2Proof.Machine

/-! ### The order of the checks -/

section Checks
variable {need blocks : Nat} {s : State}

theorem rangeOK_iff {a : Nat} : rangeOK a need = true ↔ need = 0 ∨ a + need ≤ 2 ^ 32 := by
  rw [rangeOK, Bool.or_eq_true, decide_eq_true_iff, decide_eq_true_iff]
  rfl

theorem buffersOK_iff :
    buffersOK s.srcAddr.toNat s.dstAddr.toNat need = true
      ↔ s.srcAddr = s.dstAddr ∨ need = 0 ∨ s.srcAddr.toNat + need ≤ s.dstAddr.toNat
        ∨ s.dstAddr.toNat + need ≤ s.srcAddr.toNat := by
  simp [buffersOK, rangesDisjoint, BitVec.toNat_inj, or_assoc]

/-- The conditions of a transfer are a session and the shared checks (41_commands R146, R147). -/
theorem transferable_iff : Transferable need blocks s ↔ s.sess = true ∧ streamCheck need blocks s = none := by
  rw [streamCheck_eq_none, rangeOK_iff, rangeOK_iff, buffersOK_iff]
  simp only [Transferable, counterCeiling, or_and_left, and_assoc]

/-- E_BUFSIZE is the first of the shared checks. -/
theorem streamCheck_of_smallBuffer (h : s.srcLen.toNat < need ∨ s.dstLen.toNat < need) :
    streamCheck need blocks s = some .bufSize := by
  simp [streamCheck, h]

section LargeEnough
variable (hsrc : need ≤ s.srcLen.toNat) (hdst : need ≤ s.dstLen.toNat)
include hsrc hdst

/-- E_RANGE is the second. -/
theorem streamCheck_of_overrun
    (h : rangeOK s.srcAddr.toNat need = false ∨ rangeOK s.dstAddr.toNat need = false) :
    streamCheck need blocks s = some .range := by
  rcases h with h | h <;> simp [streamCheck, Nat.not_lt.2 hsrc, Nat.not_lt.2 hdst, h]

section InRange
variable (hsrcRange : rangeOK s.srcAddr.toNat need = true) (hdstRange : rangeOK s.dstAddr.toNat need = true)
include hsrcRange hdstRange

/-- E_OVERLAP is the third. -/
theorem streamCheck_of_overlap (h : buffersOK s.srcAddr.toNat s.dstAddr.toNat need = false) :
    streamCheck need blocks s = some .overlap := by
  simp [streamCheck, Nat.not_lt.2 hsrc, Nat.not_lt.2 hdst, hsrcRange, hdstRange, h]

/-- E_CTR_EXHAUSTED is the last. -/
theorem streamCheck_of_exhausted (hbuffers : buffersOK s.srcAddr.toNat s.dstAddr.toNat need = true)
    (h : counterCeiling < counter s + blocks) : streamCheck need blocks s = some .ctrExhausted := by
  simp [streamCheck, Nat.not_lt.2 hsrc, Nat.not_lt.2 hdst, hsrcRange, hdstRange, hbuffers, h]

end InRange
end LargeEnough

/-- R189's condition: every check before the counter's passes, as it would with the counter at 0. -/
theorem streamCheck_of_exhausted_of_transferable (hready : Transferable need 0 { s with exh := false, ctr := 0 })
    (h : 2 ^ 64 < counter s + blocks) : streamCheck need blocks s = some .ctrExhausted := by
  obtain ⟨hsrc, hdst, hsrcRange, hdstRange, hbuffers, -⟩ :=
    (streamCheck_eq_none _ _ _).1 (transferable_iff.1 hready).2
  exact streamCheck_of_exhausted hsrc hdst hsrcRange hdstRange hbuffers h

end Checks

/-! ### The commands whose checks fail -/

section Session
variable {s : State} (hsess : s.sess = true)
include hsess

/-- 60_exceptions R191: the length is checked before everything the two commands share. -/
theorem exec_processBytes_of_long {length : Nat} (h : maxPartial < length) :
    exec (.processBytes length) s = .next (complete .length s) := by
  simp [exec, execProcessBytes, raiseError, hsess, h]

theorem exec_processBlocks_of_check {n : Nat} {e : ErrorCode} (h : streamCheck (64 * n) n s = some e) :
    exec (.processBlocks n) s = .next (complete e s) := by
  simp [exec, execProcessBlocks, raiseError, hsess, blockBytes, h]

theorem exec_processBytes_of_check {length : Nat} (hlen : length ≤ 64) {e : ErrorCode}
    (h : streamCheck length 1 s = some e) : exec (.processBytes length) s = .next (complete e s) := by
  simp [exec, execProcessBytes, raiseError, hsess, maxPartial, Nat.not_lt.2 hlen, h]

/-- An error of the shared checks that does not depend on the counter values asked for is both commands' error. -/
theorem exec_of_check {need : Nat} {e : ErrorCode} (h : ∀ blocks, streamCheck need blocks s = some e) :
    (∀ n, need = 64 * n → exec (.processBlocks n) s = .next (complete e s))
      ∧ (need ≤ 64 → exec (.processBytes need) s = .next (complete e s)) := by
  refine ⟨?_, fun hlen => exec_processBytes_of_check hsess hlen (h 1)⟩
  rintro n rfl
  exact exec_processBlocks_of_check hsess (h n)

end Session

/-- Settles O18: PROCESS_BYTES tests its length right after SESS. -/
theorem longPartialBlockIsReported : Obligations.LongPartialBlockIsReported :=
  fun _ _ hsess h => exec_processBytes_of_long hsess h

/-- Settles O19: the capacities are the first shared check. -/
theorem smallBufferIsReported : Obligations.SmallBufferIsReported :=
  fun _ hsess =>
    ⟨fun n h => (exec_of_check hsess fun _ => streamCheck_of_smallBuffer h).1 n rfl,
      fun _ hlen h => (exec_of_check hsess fun _ => streamCheck_of_smallBuffer h).2 hlen⟩

/-- Settles O20: a non-empty range whose exact end is above 2^32 fails RangeOK. -/
theorem addressOverrunIsReported : Obligations.AddressOverrunIsReported := by
  intro s need hsess hsrc hdst hpos h
  have notOK {a : Nat} (ha : 2 ^ 32 < a + need) : rangeOK a need = false :=
    Bool.eq_false_iff.2 (mt rangeOK_iff.1 (by omega))
  exact exec_of_check hsess fun _ => streamCheck_of_overrun hsrc hdst (h.imp notOK notOK)

/-- Settles O21: a byte in both ranges lies before the end of each, so neither ends where the other begins. -/
theorem overlapIsReported : Obligations.OverlapIsReported := by
  rintro s need hsess hsrc hdst hpos hsrcEnd hdstEnd hne ⟨a, ⟨hsrcLo, hsrcHi⟩, hdstLo, hdstHi⟩
  have hoverlap : buffersOK s.srcAddr.toNat s.dstAddr.toNat need = false := by
    refine Bool.eq_false_iff.2 (mt buffersOK_iff.1 ?_)
    rintro (heq | hdisjoint)
    · exact hne heq
    · omega
  exact exec_of_check hsess fun _ =>
    streamCheck_of_overlap hsrc hdst (rangeOK_iff.2 (.inr hsrcEnd)) (rangeOK_iff.2 (.inr hdstEnd)) hoverlap

/-! ### The counter -/

/-- 10_state R25 of a command: the counter is kept, set to 0 by the commands that begin a nonce, not lowered by a transfer,
or left open by E_BUS. -/
theorem CommandEffect.counter_cases {i : Instr} {s t : State} (h : CommandEffect i s t) :
    counter s ≤ counter t ∨ i ∈ [Instr.sessionInit, .setNonce, .sessionClear] ∨ t.err = .bus := by
  cases h with
  | error | nop | keystream => exact .inl (Nat.le_refl (counter s))
  | sessionInit hi | setNonce hi | sessionClear hi => exact .inr (.inl (by simp [hi]))
  | bus => exact .inr (.inr rfl)
  | stream need blocks u _ _ _ _ _ hcounter =>
    rw [counter_complete, counter_setCounter _ _ hcounter]
    exact .inl (Nat.le_add_right _ _)

/-- A step that lowers the counter begins a nonce anew, ends a session, resets, or ends with E_BUS. -/
theorem step_lowers_counter {s t : State} (h : step s = .next t) (hlt : counter t < counter s) :
    (EngineDue s ∧ ∃ i ∈ [Instr.sessionInit, .setNonce, .sessionClear], decode s.pend = .command i)
      ∨ (∃ rest, s.host = .reset :: rest) ∨ t.err = .bus := by
  cases step_effect h with
  | command i _ hdue hi heffect =>
    rcases heffect.counter_cases with hle | hmem | hbus
    · exact absurd hlt (Nat.not_lt.2 hle)
    · exact .inl ⟨hdue, i, hmem, hi⟩
    · exact .inr (.inr hbus)
  | illegal | idle => exact absurd hlt (Nat.lt_irrefl (counter s))
  | host a rest _ _ hhost heffect =>
    rcases heffect.sess_counter_fault with ⟨-, hkept, -⟩ | ⟨rfl, -⟩
    · exact absurd hlt (Nat.not_lt.2 hkept.ge)
    · exact .inr (.inl ⟨rest, hhost⟩)

/-- A success of a command that begins or ends a nonce leaves the counter at 0. -/
theorem counter_eq_zero_of_success {i : Instr} (hi : i ∈ [Instr.sessionInit, .setNonce, .sessionClear]) {s t : State}
    (h : exec i s = .next t) (herr : t.err = .none) : counter t = 0 := by
  have zero (u : State) : counter (complete .none (setCounter 0 u)) = 0 :=
    (counter_complete _ _).trans (counter_setCounter 0 u (Nat.zero_le _))
  cases exec_next_effect h with
  | error e hnone => exact absurd herr hnone
  | sessionInit | setNonce | sessionClear => exact zero _
  | nop hi' | keystream hi' => simp [hi'] at hi
  | bus => cases herr
  | stream _ _ _ hi' => rcases hi' with ⟨rfl, -⟩ | ⟨rfl, -⟩ <;> simp at hi

theorem counter_resetBlock (s : State) : counter (resetBlock s) = 0 := by
  simp [counter, State.reset]

/-- Settles O22: the counter's check is the last of the shared ones, and the effects of a step show what lowers the
counter. -/
theorem exhaustedCounterIsReported : Obligations.ExhaustedCounterIsReported := by
  refine ⟨fun s n hready h => ?_, fun s length hlen hready h => ?_, fun s t i hi => counter_eq_zero_of_success hi,
    counter_resetBlock, fun s t => step_lowers_counter⟩
  · have hsess : s.sess = true := hready.1
    exact exec_processBlocks_of_check hsess (streamCheck_of_exhausted_of_transferable hready h)
  · have hsess : s.sess = true := hready.1
    exact exec_processBytes_of_check hsess hlen (streamCheck_of_exhausted_of_transferable hready h)

end Sys2Proof.Machine
end

section
/-! PROOFS. E_BUS (60_exceptions R194) and WERR (R195). -/

namespace Sys2Proof.Machine

/-! ### E_BUS -/

/-- 41_commands R146: a transfer of blocks past its checks that meets an access not admitted ends with E_BUS. -/
theorem exec_processBlocks_of_unadmitted {n : Nat} {s : State} (hready : Transferable (64 * n) n s)
    (hadm : ¬ AllAdmitted (64 * n) s) : exec (.processBlocks n) s = .next (busFault (64 * n) s) := by
  obtain ⟨hsess, hcheck⟩ := transferable_iff.1 hready
  have hloop : xorBlocks n (counter s) s.srcAddr.toNat s.dstAddr.toNat s = none :=
    Option.not_isSome_iff_eq_none.1 (mt (xorBlocks_isSome _ _ _ _ _).1 hadm)
  simp [exec, execProcessBlocks, finishStream, hsess, blockBytes, hcheck, hloop]

/-- 41_commands R147: so does a partial block. -/
theorem exec_processBytes_of_unadmitted {length : Nat} {s : State} (hlen : length ≤ 64)
    (hready : Transferable length 1 s) (hadm : ¬ AllAdmitted length s) :
    exec (.processBytes length) s = .next (busFault length s) := by
  obtain ⟨hsess, hcheck⟩ := transferable_iff.1 hready
  have hbytes (k : Vector Byte 64) : (k.toList.take length).length = length := by simp [hlen]
  have hloop : xorBytes ((block s.skey s.snonce (indexOfCounter (counter s))).toList.take length) s.srcAddr.toNat
      s.dstAddr.toNat (runBlock (indexOfCounter (counter s)) s) = none := by
    refine Option.not_isSome_iff_eq_none.1 (mt (xorBytes_isSome _ _ _ _).1 ?_)
    rw [hbytes]
    exact hadm
  simp [exec, execProcessBytes, finishStream, hsess, maxPartial, Nat.not_lt.2 hlen, hcheck, hloop]

/-- E_BUS leaves every element alone but FAULT, the counter, memory and the completion's own. -/
theorem busFault_frame (need : Nat) (s : State) :
    busFault need s
      = { s with fault := true, exh := (busFault need s).exh, ctr := (busFault need s).ctr,
                 mem := (busFault need s).mem, draws := (busFault need s).draws,
                 busy := false, done := true, err := .bus, arrays := none } := rfl

/-- The counter E_BUS leaves is at most 2^64 (10_state R25). -/
theorem counter_busFault_le (need : Nat) (s : State) : counter (busFault need s) ≤ 2 ^ 64 := by
  have hfree : (Config.freeCounter s.draws).val ≤ 2 ^ 64 := Nat.le_of_lt_succ (Config.freeCounter s.draws).isLt
  have hcounter : counter (busFault need s) = (Config.freeCounter s.draws).val := counter_setCounter _ s hfree
  exact hcounter.trans_le hfree

/-- While FAULT = 1 no command is in flight, and only reset clears FAULT. -/
theorem step_keeps_fault {s t : State} (hfault : s.fault = true) (hbusy : s.busy = false) (h : step s = .next t) :
    t.fault = true ∨ ∃ rest, s.host = .reset :: rest := by
  cases step_effect h with
  | command _ _ hdue | illegal hdue => exact absurd hdue.1 (by simp [hbusy])
  | idle => exact .inl hfault
  | host a rest _ _ hhost heffect =>
    rcases heffect.sess_counter_fault with ⟨-, -, hkept⟩ | ⟨rfl, -⟩
    · exact .inl (hkept.trans hfault)
    · exact .inr ⟨rest, hhost⟩

/-- Settles O24: the next state is `busFault`, whose free values are the counter and the destination bytes; then the rules
of a faulted block. -/
theorem busErrorEffects : Obligations.BusErrorEffects := by
  refine ⟨fun s i need hi hadm => ?_, fun s off v hfault => regWrite_of_dropped (.inr hfault) off v,
    fun s t => step_keeps_fault, fun _ => rfl, fun s off _ halign hoff => ⟨_, ?_, rfl⟩,
    fun s hfault hgood => hgood.2 hfault⟩
  · have hexec : exec i s = .next (busFault need s) := by
      rcases hi with ⟨n, rfl, rfl, hready⟩ | ⟨rfl, hlen, hready⟩
      · exact exec_processBlocks_of_unadmitted hready hadm
      · exact exec_processBytes_of_unadmitted hlen hready hadm
    exact ⟨busFault need s, hexec, busFault_frame need s, counter_busFault_le need s,
      fun a ha => memScramble_other _ _ _ _ _ ha⟩
  · exact (hostAct_rd_eq 32 off s).trans (if_pos ⟨rfl, halign, hoff⟩)

/-! ### WERR -/

/-- The three things a register write can do to WERR: nothing, set it when dropped, clear it through STATUS. -/
theorem RegWriteEffect.werr {off : Nat} {v : Word} {s t : State} (h : RegWriteEffect off v s t) :
    t.werr = s.werr
      ∨ (t.werr = true ∧ (s.busy = true ∨ s.fault = true))
      ∨ (off = 0x4C ∧ v.getLsbD 4 = true ∧ s.busy = false ∧ s.fault = false ∧ t.werr = false) := by
  cases h with
  | dropped h => exact .inr (.inl ⟨rfl, h⟩)
  | accepted => exact .inl (acceptCommand_werr v s)
  | cleared hbusy hfault hoff hbit => exact .inr (.inr ⟨hoff, hbit, hbusy, hfault, rfl⟩)
  | stored _ h => exact .inl (congrArg State.werr h :)

/-- No command changes WERR. -/
theorem CommandEffect.werr {i : Instr} {s t : State} (h : CommandEffect i s t) : t.werr = s.werr := by
  cases h with
  | error | nop | sessionInit | setNonce | keystream | sessionClear | bus => rfl
  | stream _ _ _ _ _ hframe => exact (congrArg State.werr hframe :)

/-- One step's WERR: kept, set by a dropped write, or cleared by a STATUS write or by reset (60_exceptions R195). -/
theorem step_werr {s t : State} (h : step s = .next t) :
    t.werr = s.werr
      ∨ (t.werr = true ∧ ∃ off v rest, s.host = .wr 32 off v :: rest ∧ (s.busy = true ∨ s.fault = true))
      ∨ (t.werr = false
          ∧ ((∃ v rest, s.host = .wr 32 0x4C v :: rest ∧ v.getLsbD 4 = true ∧ s.busy = false ∧ s.fault = false)
            ∨ ∃ rest, s.host = .reset :: rest)) := by
  cases step_effect h with
  | command _ _ _ _ heffect => exact .inl heffect.werr
  | illegal | idle => exact .inl rfl
  | host a rest _ _ hhost heffect =>
    cases heffect with
    | saw | checked | polled | stored => exact .inl rfl
    | reset ha => exact .inr (.inr ⟨rfl, .inr ⟨rest, ha ▸ hhost⟩⟩)
    | wrote off v ha =>
      subst ha
      rcases (regWrite_effect off v _).werr with hkept | ⟨hset, hdrop⟩ | ⟨rfl, hbit, hbusy, hfault, hclear⟩
      · exact .inl hkept
      · exact .inr (.inl ⟨hset, off, v, rest, hhost, hdrop⟩)
      · exact .inr (.inr ⟨hclear, .inl ⟨v, rest, hhost, hbit, hbusy, hfault⟩⟩)

/-- The step that makes an aligned host write of the window. -/
theorem step_of_host_write {s : State} (hdue : ¬ EngineDue s) {off : Nat} {v : Word} {rest : List HostAct}
    (hhost : s.host = .wr 32 off v :: rest) (halign : off % 4 = 0) (hoff : off ≤ 0xFC) :
    step s = .next (regWrite off v { s with host := rest, delay := s.delay - 1 }) :=
  (step_of_host hdue hhost).trans ((hostAct_wr_eq 32 off v _).trans (if_pos ⟨rfl, halign, hoff⟩))

/-- Settles O42: both directions of one step's WERR, then the two writes that R195 describes. -/
theorem werrIsSticky : Obligations.WerrIsSticky := by
  refine ⟨fun s t h hs => ?_, fun s t h hs ht => ?_, fun s off v rest hdue hhost halign hoff hdrop => ?_,
    fun s v hbusy hfault hbit => ?_, fun _ => rfl⟩
  · rcases step_werr h with hkept | ⟨hset, -⟩ | ⟨-, hclear⟩
    · exact .inl (hkept.trans hs)
    · exact .inl hset
    · exact .inr hclear
  · rcases step_werr h with hkept | ⟨-, hwrite⟩ | ⟨hclear, -⟩
    · simp [hkept, hs] at ht
    · exact hwrite
    · simp [hclear] at ht
  · have hwrite := regWrite_of_dropped (s := { s with host := rest, delay := s.delay - 1 }) hdrop off v
    exact ⟨_, (step_of_host_write hdue hhost halign hoff).trans (congrArg _ hwrite), rfl, rfl, rfl⟩
  · exact (regWrite_regOffset hbusy hfault .status v).trans (if_pos hbit)

end Sys2Proof.Machine
end

section
/-! PROOFS. What the reset input leaves of data memory (70_reset R211, R212). -/

namespace Sys2Proof.Machine

/-- The two PROCESS_* commands are the only ones with a destination range (41_commands R150). -/
theorem streamNeed_eq_none {i : Instr} (h : ∀ n, i ≠ .processBlocks n ∧ i ≠ .processBytes n) :
    streamNeed i = none := by
  cases i with
  | processBlocks n => exact absurd rfl (h n).1
  | processBytes n => exact absurd rfl (h n).2
  | nop | sessionInit | setNonce | keystream | sessionClear => rfl

/-- PEND with no PROCESS_* command gives no transfer in flight. -/
theorem activeNeed_eq_none {s : State}
    (h : ∀ n, decode s.pend ≠ .command (.processBlocks n) ∧ decode s.pend ≠ .command (.processBytes n)) :
    activeNeed s = none := by
  cases hbusy : s.busy with
  | false => simp [activeNeed, hbusy]
  | true =>
    cases hdecode : decode s.pend with
    | illegal why => simp [activeNeed, hbusy, hdecode]
    | command i =>
      have hnone : streamNeed i = none := streamNeed_eq_none (by simpa [hdecode] using h)
      simp [activeNeed, hbusy, hdecode, hnone]

theorem memAfterReset_of_activeNeed_eq_none {s : State} (h : activeNeed s = none) : memAfterReset s = s.mem := by
  simp [memAfterReset, h]

/-- Reset while a command with a destination range is in PEND: every byte outside the range stays, the block idle (R211)
or the command abandoned (R212). -/
theorem memRead_memAfterReset_of_outside {s : State} {i : Instr} {need a : Nat} (hpend : decode s.pend = .command i)
    (hneed : streamNeed i = some need) (ha : ¬ InRange s.dstAddr.toNat need a) :
    memRead (memAfterReset s) a = memRead s.mem a := by
  cases hbusy : s.busy with
  | false => rw [memAfterReset_of_idle hbusy]
  | true =>
    have hactive : activeNeed s = some need := by simp [activeNeed, hbusy, hpend, hneed]
    simpa [memAfterReset, hactive] using memScramble_other s.draws need s.dstAddr.toNat a s.mem ha

/-- Settles O47: the elements by the definition of resetBlock, data memory by whether PEND holds a transfer. -/
theorem resetClearsTheBlock : Obligations.ResetClearsTheBlock := fun s =>
  ⟨resetBlock s, rfl, rfl, memAfterReset_of_idle,
    fun _ hpend _ ha => memRead_memAfterReset_of_outside hpend rfl ha,
    fun _ hpend _ ha => memRead_memAfterReset_of_outside hpend rfl ha,
    fun hpend => memAfterReset_of_activeNeed_eq_none (activeNeed_eq_none hpend)⟩

end Sys2Proof.Machine
end

section
/-! PROOFS. Decode and encode are inverse to each other on the commands (30_encoding R91-R94). -/

namespace Sys2Proof

theorem decodeZ_eq_command_iff {i j : Instr} {op : BitVec 8} {arg : BitVec 24} :
    decodeZ i op arg = .command j ↔ i = j ∧ arg = 0 := by
  unfold decodeZ
  split
  next h => simp [h]
  next h => exact ⟨nofun, fun hboth => absurd hboth.2 h⟩

/-- A word that decodes to a command carries the command's opcode in OP and its argument in ARG. -/
theorem fields_of_decode {w : Word} {i : Instr} (h : decode w = .command i) :
    opField w = opcode i ∧ (argField w).toNat = argument i := by
  unfold decode at h
  dsimp only at h
  iterate 4
    split at h
    next hop =>
      obtain ⟨rfl, harg⟩ := decodeZ_eq_command_iff.1 h
      exact ⟨hop, congrArg BitVec.toNat harg⟩
  iterate 2
    split at h
    next hop =>
      cases h
      exact ⟨hop, rfl⟩
  split at h
  next hop =>
    obtain ⟨rfl, harg⟩ := decodeZ_eq_command_iff.1 h
    exact ⟨hop, congrArg BitVec.toNat harg⟩
  cases h

/-- 30_encoding R92: a command is well formed exactly when its argument fits the ARG field. -/
theorem wellFormed_iff (i : Instr) : wellFormed i = true ↔ argument i < argLimit := by
  cases i with
  | processBlocks n | processBytes n => exact decide_eq_true_iff
  | nop | sessionInit | setNonce | keystream | sessionClear => decide

/-- A word is its ARG field above its OP field (30_encoding R91). -/
theorem argField_append_opField (w : Word) : argField w ++ opField w = w :=
  (BitVec.extractLsb'_append_extractLsb'_eq_extractLsb' rfl).trans BitVec.extractLsb'_eq_self

theorem wellFormed_of_decode {w : Word} {i : Instr} (h : decode w = .command i) : wellFormed i = true := by
  rw [wellFormed_iff, ← (fields_of_decode h).2]
  exact (argField w).isLt

theorem encode_of_decode {w : Word} {i : Instr} (h : decode w = .command i) : encode i = w := by
  obtain ⟨hop, harg⟩ := fields_of_decode h
  rw [encode, ← hop, ← harg, BitVec.ofNat_toNat, BitVec.setWidth_eq, argField_append_opField]

/-- The opcode and the argument tell decode which command a word is. -/
theorem decode_of_fields {w : Word} {i : Instr} (hop : opField w = opcode i)
    (harg : (argField w).toNat = argument i) : decode w = .command i := by
  cases i with
  | processBlocks n | processBytes n => simp [decode, hop, harg, opcode, argument]
  | nop | sessionInit | setNonce | keystream | sessionClear =>
    have hzero : argField w = 0 := BitVec.eq_of_toNat_eq harg
    simp [decode, decodeZ, hop, hzero, opcode]

theorem decode_encode {i : Instr} (h : wellFormed i = true) : decode (encode i) = .command i := by
  obtain ⟨hop, harg⟩ := Laws.EncodingFields.fields_of_small i ((wellFormed_iff i).1 h)
  exact decode_of_fields hop harg

/-- Settles O1: the word of a well-formed command carries its opcode and argument, and decode reads those two fields. -/
theorem commandWordRoundTrip : Obligations.CommandWordRoundTrip := fun _ => decode_encode

/-- Settles O2: decode names a command by the two fields, and a word is nothing but its fields. -/
theorem decodedWordIsEncoded : Obligations.DecodedWordIsEncoded :=
  fun _ _ h => ⟨wellFormed_of_decode h, encode_of_decode h⟩

/-- Settles O3: the seven words evaluated. -/
theorem specExampleWordsDecode : Obligations.SpecExampleWordsDecode := by
  unfold Obligations.SpecExampleWordsDecode
  decide

end Sys2Proof
end

section
/-! PROOFS. What every step keeps: canonical memory (20_memory R61), legal flags, counter and sequencer (10_state R25,
R34, R40), no secrets without a session (R23), and the platform (00_scope R4). -/

namespace Sys2Proof.Machine

/-! ### Frames -/

/-- What a register write cannot reach: the session, the counter, KS0-KS15, FAULT, the arrays, data memory, the
platform, and the host's records. -/
theorem RegWriteEffect.frame {off : Nat} {v : Word} {s t : State} (h : RegWriteEffect off v s t) :
    t = { s with key := t.key, nonce := t.nonce, wrmask := t.wrmask, indexLo := t.indexLo, indexHi := t.indexHi,
                 srcAddr := t.srcAddr, dstAddr := t.dstAddr, srcLen := t.srcLen, dstLen := t.dstLen, cmd := t.cmd,
                 busy := t.busy, done := t.done, werr := t.werr, err := t.err, pend := t.pend, draws := t.draws,
                 delay := t.delay, schedule := t.schedule } := by
  cases h with
  | dropped | cleared => rfl
  | accepted => rw [acceptCommand_frame v s]
  | stored _ h => rw [h]

theorem CommandEffect.platform {i : Instr} {s t : State} (h : CommandEffect i s t) : t.platform = s.platform := by
  cases h with
  | error | nop | sessionInit | setNonce | keystream | sessionClear | bus => rfl
  | stream _ _ _ _ _ hframe => exact (congrArg State.platform hframe :)

theorem HostEffect.platform {a : HostAct} {s t : State} (h : HostEffect a s t) : t.platform = s.platform := by
  cases h with
  | saw | checked | polled | stored | reset => rfl
  | wrote off v => exact (congrArg State.platform (regWrite_effect off v s).frame :)

/-- Settles O56: no effect of a command or of a host access names the platform. -/
theorem stepKeepsThePlatform : Obligations.StepKeepsThePlatform := by
  intro s t h
  cases step_effect h with
  | command _ _ _ _ heffect => exact heffect.platform
  | illegal | idle => rfl
  | host _ _ _ _ _ heffect => exact heffect.platform

/-! ### Canonical memory -/

theorem memWf_memAfterReset {s : State} (h : MemoryCanonical s) : memWf (memAfterReset s) = true := by
  unfold memAfterReset
  split
  · exact h
  · exact memScramble_wf _ _ _ _ h

theorem CommandEffect.memoryCanonical {i : Instr} {s t : State} (h : CommandEffect i s t) (hs : MemoryCanonical s) :
    MemoryCanonical t := by
  cases h with
  | error | nop | sessionInit | setNonce | keystream | sessionClear => exact hs
  | bus => exact memScramble_wf _ _ _ _ hs
  | stream _ _ _ _ _ _ _ hwf => exact hwf hs

theorem HostEffect.memoryCanonical {a : HostAct} {s t : State} (h : HostEffect a s t) (hs : MemoryCanonical s) :
    MemoryCanonical t := by
  cases h with
  | saw | checked | polled => exact hs
  | wrote off v =>
    have hmem : (regWrite off v s).mem = s.mem := (congrArg State.mem (regWrite_effect off v s).frame :)
    exact (congrArg memWf hmem).trans hs
  | stored b bs hb =>
    rcases hb with hb | rfl
    · exact memWriteRange_wf bs s.mem b hb hs
    · exact hs
  | reset => exact memWf_memAfterReset hs

/-- Settles O51: the bytes a step stores lie inside the address space, one by one or in a range of free values. -/
theorem stepKeepsMemoryCanonical : Obligations.StepKeepsMemoryCanonical := by
  intro s t hs h
  cases step_effect h with
  | command _ _ _ _ heffect => exact heffect.memoryCanonical hs
  | illegal | idle => exact hs
  | host _ _ _ _ _ heffect => exact heffect.memoryCanonical hs

/-! ### Counter, flags and sequencer -/

/-- A completed command leaves legal flags where FAULT and E_BUS agree. -/
theorem flagsLegal_complete {e : ErrorCode} {s : State} (h : s.fault = true ↔ e = .bus) :
    FlagsLegal (complete e s) := ⟨nofun, h⟩

/-- An accepted command is in flight with legal flags. -/
theorem flagsLegal_acceptCommand {s : State} (hfault : s.fault = false) (v : Word) :
    FlagsLegal (acceptCommand v s) := by
  simp [FlagsLegal, hfault]

theorem sequencerIdle_complete {s : State} (h : s.cmd = s.pend) (e : ErrorCode) : SequencerIdle (complete e s) :=
  ⟨h, rfl⟩

theorem CommandEffect.counterLegal {i : Instr} {s t : State} (h : CommandEffect i s t) (hs : CounterLegal s) :
    CounterLegal t := by
  cases h with
  | error | nop | keystream => exact hs
  | sessionInit | setNonce | sessionClear => exact setCounter_legal 0 s (Nat.zero_le _)
  | bus => exact setCounter_legal _ s (Nat.le_of_lt_succ (Config.freeCounter s.draws).isLt)
  | stream _ _ u _ _ _ _ _ hcounter => exact setCounter_legal _ u hcounter

/-- FAULT was 0 while the command was in flight, and only E_BUS sets it. -/
theorem CommandEffect.flagsLegal {i : Instr} {s t : State} (h : CommandEffect i s t) (hs : s.fault = false) :
    FlagsLegal t := by
  have noFault {u : State} {e : ErrorCode} (hu : u.fault = s.fault) (he : e ≠ .bus) : FlagsLegal (complete e u) :=
    flagsLegal_complete (by simp [hu, hs, he])
  cases h with
  | error e _ hbus => exact noFault rfl hbus
  | nop | sessionInit | setNonce | keystream | sessionClear => exact noFault rfl (by decide)
  | bus => exact flagsLegal_complete (by simp)
  | stream _ _ _ _ _ hframe => exact noFault (congrArg State.fault hframe :) (by decide)

theorem CommandEffect.sequencerIdle {i : Instr} {s t : State} (h : CommandEffect i s t) (hs : s.cmd = s.pend) :
    SequencerIdle t := by
  cases h with
  | error | nop | sessionInit | setNonce | keystream | sessionClear | bus => exact ⟨hs, rfl⟩
  | stream _ _ _ _ _ hframe => exact sequencerIdle_complete (by rw [hframe]; exact hs) _

/-- No register write makes the counter, the flags or the sequencer illegal. -/
theorem RegWriteEffect.statusLegal {off : Nat} {v : Word} {s t : State} (h : RegWriteEffect off v s t)
    (hc : CounterLegal s) (hf : FlagsLegal s) (hq : SequencerIdle s) :
    CounterLegal t ∧ FlagsLegal t ∧ SequencerIdle t := by
  cases h with
  | dropped | cleared => exact ⟨hc, hf, hq⟩
  | accepted _ hfault =>
    exact ⟨by simpa [CounterLegal] using hc, flagsLegal_acceptCommand hfault v, by simpa [SequencerIdle] using hq.2⟩
  | stored _ h =>
    rw [h]
    exact ⟨hc, hf, hq⟩

theorem HostEffect.statusLegal {a : HostAct} {s t : State} (h : HostEffect a s t)
    (hc : CounterLegal s) (hf : FlagsLegal s) (hq : SequencerIdle s) :
    CounterLegal t ∧ FlagsLegal t ∧ SequencerIdle t := by
  cases h with
  | saw | checked | polled | stored => exact ⟨hc, hf, hq⟩
  | wrote off v => exact (regWrite_effect off v s).statusLegal hc hf hq
  | reset => exact ⟨nofun, ⟨nofun, nofun, nofun⟩, rfl, rfl⟩

/-- Settles O52: an engine step starts with FAULT = 0 and ends idle, a host step can at most accept a command
or reset. -/
theorem stepKeepsStatusLegal : Obligations.StepKeepsStatusLegal := by
  intro s t hc hf hq h
  cases step_effect h with
  | command _ _ hdue _ heffect =>
    have hfault : s.fault = false := (hf.1 hdue.1).2.2
    exact ⟨heffect.counterLegal hc, heffect.flagsLegal hfault, heffect.sequencerIdle hq.1⟩
  | illegal hdue =>
    have hfault : s.fault = false := (hf.1 hdue.1).2.2
    exact ⟨hc, flagsLegal_complete (by simp [hfault]), sequencerIdle_complete hq.1 _⟩
  | idle => exact ⟨hc, hf, hq⟩
  | host _ _ _ _ _ heffect => exact heffect.statusLegal hc hf hq

/-! ### No session, no secrets -/

/-- The transfers, SET_NONCE and KEYSTREAM need a session, SESSION_INIT makes one and SESSION_CLEAR zeroes
everything. -/
theorem CommandEffect.noSessionNoSecrets {i : Instr} {s t : State} (h : CommandEffect i s t)
    (hs : NoSessionNoSecrets s) : NoSessionNoSecrets t := by
  have inSession {u : State} (hu : u.sess = true) : NoSessionNoSecrets u := fun hno => by simp [hu] at hno
  cases h with
  | error | nop => exact hs
  | sessionInit => exact inSession rfl
  | setNonce _ hsess | keystream _ hsess | bus _ _ hsess => exact inSession hsess
  | sessionClear => exact fun _ => ⟨rfl, rfl, rfl, rfl, rfl⟩
  | stream _ _ _ _ hsess hframe => exact inSession ((congrArg State.sess hframe :).trans hsess)

theorem HostEffect.noSessionNoSecrets {a : HostAct} {s t : State} (h : HostEffect a s t)
    (hs : NoSessionNoSecrets s) : NoSessionNoSecrets t := by
  cases h with
  | saw | checked | polled | stored => exact hs
  | wrote off v =>
    rw [(regWrite_effect off v s).frame]
    exact hs
  | reset => exact fun _ => ⟨rfl, rfl, rfl, rfl, rfl⟩

/-- Settles O53: what a step does to the secrets, it does in a session or zeroes them. -/
theorem stepKeepsNoSessionNoSecrets : Obligations.StepKeepsNoSessionNoSecrets := by
  intro s t hs h
  cases step_effect h with
  | command _ _ _ _ heffect => exact heffect.noSessionNoSecrets hs
  | illegal | idle => exact hs
  | host _ _ _ _ _ heffect => exact heffect.noSessionNoSecrets hs

/-- Settles O50: the invariants read off State.reset. -/
theorem resetMeetsTheInvariants : Obligations.ResetMeetsTheInvariants :=
  ⟨rfl, nofun, ⟨nofun, nofun, nofun⟩, ⟨rfl, rfl⟩, fun _ => ⟨rfl, rfl, rfl, rfl, rfl⟩⟩

end Sys2Proof.Machine
end

section
/-! PROOFS. The engine's step as a whole: it always ends (41_commands R141), a polling host sees it end (70_reset R221),
and what it moves of the counter (10_state R25), the keystream registers (R35) and data memory (20_memory R60). -/

namespace Sys2Proof.Machine

/-! ### The engine's step ends -/

/-- Every command ends with BUSY = 0 and DONE = 1, CMD and the host's accesses as they were. -/
theorem CommandEffect.completes {i : Instr} {s t : State} (h : CommandEffect i s t) :
    t.busy = false ∧ t.done = true ∧ t.cmd = s.cmd ∧ t.host = s.host := by
  cases h with
  | error | nop | sessionInit | setNonce | keystream | sessionClear | bus => exact ⟨rfl, rfl, rfl, rfl⟩
  | stream _ _ _ _ _ hframe =>
    exact ⟨rfl, rfl, (congrArg State.cmd hframe :), (congrArg State.host hframe :)⟩

theorem engineStep_completes (s : State) :
    ∃ t, engineStep s = .next t ∧ t.busy = false ∧ t.done = true ∧ t.cmd = s.cmd ∧ t.host = s.host := by
  rcases engineStep_cases s with ⟨i, -, hstep⟩ | ⟨-, -, hstep⟩
  · obtain ⟨t, ht, heffect⟩ := exec_effect i s
    exact ⟨t, hstep.trans ht, heffect.completes⟩
  · exact ⟨_, hstep, rfl, rfl, rfl, rfl⟩

/-- Settles O6: whatever PEND holds, the step is a command's, which completes, or E_ILLEGAL's completion. -/
theorem engineStepAlwaysCompletes : Obligations.EngineStepAlwaysCompletes := by
  intro s hdue
  rw [step_of_engineDue hdue]
  exact engineStep_completes s

theorem engineStep_of_command {s : State} {i : Instr} (h : decode s.pend = .command i) : engineStep s = exec i s := by
  simp [engineStep, h]

/-- Settles O5: the engine's step is `engineStep`, which runs what PEND decodes to. -/
theorem engineStepRunsDecodedCommand : Obligations.EngineStepRunsDecodedCommand :=
  fun _ _ hdue hi => (step_of_engineDue hdue).trans (engineStep_of_command hi)

/-- When neither agent has a step to take, nothing changes. -/
theorem step_of_no_host {s : State} (hdue : ¬ EngineDue s) (hhost : s.host = []) : step s = .next s := by
  have hturn : engineTurn s = false := Bool.eq_false_iff.2 (mt (engineTurn_iff s).1 hdue)
  simp [step, machineStep, hturn, hhost]

/-- 60_exceptions R204: the idle block keeps its state. -/
theorem step_of_final {s : State} (h : Final s) : step s = .next s :=
  step_of_no_host (fun hdue => absurd hdue.1 (by simp [h.2])) h.1

/-- Settles O7: the two steps that are not the engine's. -/
theorem hostStepsAndIdleSteps : Obligations.HostStepsAndIdleSteps :=
  ⟨fun _ _ _ hdue hhost => step_of_host hdue hhost, fun _ => step_of_final⟩

/-! ### Polling -/

theorem run_succ_of_next {s t : State} (h : step s = .next t) (k : Nat) :
    Sys2Proof.core.run (k + 1) s = Sys2Proof.core.run k t := by
  have hcore : Sys2Proof.core.step s = .next t := h
  simp [Host.Core.run, hcore]

/-- A poll while the command in flight still waits comes again, and the wait is one host step shorter. -/
theorem step_of_polling {s : State} {rest : List HostAct} {d : Nat} (hbusy : s.busy = true)
    (hhost : s.host = .poll :: rest) (hdelay : s.delay = d + 1) :
    ∃ t, step s = .next t ∧ t.busy = true ∧ t.host = .poll :: rest ∧ t.delay = d := by
  have hdue : ¬ EngineDue s := by simp [hhost, hdelay]
  refine ⟨_, step_of_host hdue hhost, ?_⟩
  simp [hostPoll, hbusy, see, hdelay]

theorem run_of_polling (d : Nat) {s : State} {rest : List HostAct} (hbusy : s.busy = true)
    (hhost : s.host = .poll :: rest) (hdelay : s.delay = d) :
    ∃ t, Sys2Proof.core.run (d + 1) s = .next t ∧ t.busy = false ∧ t.done = true := by
  induction d generalizing s with
  | zero =>
    obtain ⟨t, ht, hdone, hbusy', -⟩ := engineStepAlwaysCompletes s ⟨hbusy, .inr hdelay⟩
    exact ⟨t, run_succ_of_next ht 0, hdone, hbusy'⟩
  | succ d ih =>
    obtain ⟨u, hu, hbusy', hhost', hdelay'⟩ := step_of_polling hbusy hhost hdelay
    rw [run_succ_of_next hu]
    exact ih hbusy' hhost' hdelay'

/-- Settles O8: induction on the delay, each poll taking one host step off it. -/
theorem pollingReachesCompletion : Obligations.PollingReachesCompletion :=
  fun _ _ hbusy hhost => run_of_polling _ hbusy hhost rfl

/-! ### The counter -/

/-- 10_state R25 of a command, in {EXH, CTR}: kept, set to 0, moved by the blocks of a transfer, or left open by
E_BUS. -/
theorem CommandEffect.counterMoves {i : Instr} {s t : State} (h : CommandEffect i s t) :
    (t.exh = s.exh ∧ t.ctr = s.ctr)
      ∨ (t.exh = false ∧ t.ctr = 0 ∧ i ∈ [Instr.sessionInit, .setNonce, .sessionClear])
      ∨ (t.err = .none ∧ ∃ b, (i = .processBlocks b ∨ (b = 1 ∧ ∃ l, i = .processBytes l))
          ∧ counter t = counter s + b ∧ counter t ≤ 2 ^ 64)
      ∨ (t.err = .bus ∧ t.fault = true ∧ counter t ≤ 2 ^ 64) := by
  cases h with
  | error | nop | keystream => exact .inl ⟨rfl, rfl⟩
  | sessionInit hi | setNonce hi | sessionClear hi => exact .inr (.inl ⟨rfl, rfl, by simp [hi]⟩)
  | bus need => exact .inr (.inr (.inr ⟨rfl, rfl, counter_busFault_le need s⟩))
  | stream need blocks u hi _ _ _ _ hcounter =>
    have hmoved : counter (complete .none (setCounter (counter s + blocks) u)) = counter s + blocks :=
      counter_setCounter _ u hcounter
    have hcommand : i = .processBlocks blocks ∨ (blocks = 1 ∧ ∃ l, i = .processBytes l) :=
      hi.imp And.left fun ⟨hbytes, hone⟩ => ⟨hone, need, hbytes⟩
    exact .inr (.inr (.inl ⟨rfl, blocks, hcommand, hmoved, hmoved.trans_le hcounter⟩))

/-- Of the host's accesses only reset moves the counter, to 0. -/
theorem HostEffect.counterMoves {a : HostAct} {s t : State} (h : HostEffect a s t) :
    (t.exh = s.exh ∧ t.ctr = s.ctr) ∨ (t.exh = false ∧ t.ctr = 0 ∧ a = .reset) := by
  cases h with
  | saw | checked | polled | stored => exact .inl ⟨rfl, rfl⟩
  | wrote off v =>
    have hframe := (regWrite_effect off v s).frame
    exact .inl ⟨(congrArg State.exh hframe :), (congrArg State.ctr hframe :)⟩
  | reset ha => exact .inr ⟨rfl, rfl, ha⟩

/-- Settles O55: the effects of a step, each with what it does to the counter. -/
theorem counterMovesOnlyAsTheRulesSay : Obligations.CounterMovesOnlyAsTheRulesSay := by
  intro s t h
  cases step_effect h with
  | command i _ hdue hi heffect =>
    rcases heffect.counterMoves with hkept | ⟨hexh, hctr, hmem⟩ | ⟨herr, b, hcommand, hmoved⟩ | hbus
    · exact .inl hkept
    · exact .inr (.inl ⟨hexh, hctr, .inl ⟨hdue, i, hmem, hi⟩⟩)
    · refine .inr (.inr (.inl ⟨hdue, herr, b, ?_, hmoved⟩))
      rcases hcommand with rfl | ⟨hone, l, rfl⟩
      · exact .inl hi
      · exact .inr ⟨hone, l, hi⟩
    · exact .inr (.inr (.inr ⟨hdue, hbus⟩))
  | illegal | idle => exact .inl ⟨rfl, rfl⟩
  | host a rest _ _ hhost heffect =>
    rcases heffect.counterMoves with hkept | ⟨hexh, hctr, rfl⟩
    · exact .inl hkept
    · exact .inr (.inl ⟨hexh, hctr, .inr ⟨rest, hhost⟩⟩)

/-! ### The keystream registers -/

/-- KEYSTREAM writes KS0-KS15, the commands that begin or end a nonce zero them, no other command changes them. -/
theorem CommandEffect.ks {i : Instr} {s t : State} (h : CommandEffect i s t) :
    t.ks = s.ks
      ∨ (i = .keystream ∧ t.ks = blockWords s.skey s.snonce (blockIndex s))
      ∨ (t.ks = zeroKs ∧ i ∈ [Instr.sessionInit, .setNonce, .sessionClear]) := by
  cases h with
  | error | nop | bus => exact .inl rfl
  | stream _ _ _ _ _ hframe => exact .inl (congrArg State.ks hframe :)
  | keystream hi => exact .inr (.inl ⟨hi, rfl⟩)
  | sessionInit hi | setNonce hi | sessionClear hi => exact .inr (.inr ⟨rfl, by simp [hi]⟩)

/-- Of the host's accesses only reset changes KS0-KS15, to 0. -/
theorem HostEffect.ks {a : HostAct} {s t : State} (h : HostEffect a s t) :
    t.ks = s.ks ∨ (t.ks = zeroKs ∧ a = .reset) := by
  cases h with
  | saw | checked | polled | stored => exact .inl rfl
  | wrote off v => exact .inl (congrArg State.ks (regWrite_effect off v s).frame :)
  | reset ha => exact .inr ⟨rfl, ha⟩

/-- Settles O58: the effects of a step, each with what it does to KS0-KS15. -/
theorem keystreamRegistersChangeOnlyAsTheRulesSay : Obligations.KeystreamRegistersChangeOnlyAsTheRulesSay := by
  intro s t h
  cases step_effect h with
  | command i _ hdue hi heffect =>
    rcases heffect.ks with hkept | ⟨rfl, hblock⟩ | ⟨hzero, hmem⟩
    · exact .inl hkept
    · exact .inr (.inl ⟨hdue, hi, hblock⟩)
    · exact .inr (.inr ⟨hzero, .inl ⟨hdue, i, hmem, hi⟩⟩)
  | illegal | idle => exact .inl rfl
  | host a rest _ _ hhost heffect =>
    rcases heffect.ks with hkept | ⟨hzero, rfl⟩
    · exact .inl hkept
    · exact .inr (.inr ⟨hzero, .inr ⟨rest, hhost⟩⟩)

/-- Settles O36: the next state of KEYSTREAM, whose block is a function of key, nonce and index. -/
theorem keystreamDependsOnKeyNonceIndexOnly : Obligations.KeystreamDependsOnKeyNonceIndexOnly := by
  intro s r t u hs hr hkey hnonce hlo hhi ht hu
  rw [exec_keystream_of_session hs] at ht
  rw [exec_keystream_of_session hr] at hu
  cases ht
  cases hu
  simp only [complete_ks, blockIndex, hkey, hnonce, hlo, hhi]

/-! ### Data memory -/

/-- A command without a byte count leaves data memory alone (20_memory R60). -/
theorem CommandEffect.mem_of_streamNeed_eq_none {i : Instr} {s t : State} (h : CommandEffect i s t)
    (hneed : streamNeed i = none) : t.mem = s.mem := by
  cases h with
  | error | nop | sessionInit | setNonce | keystream | sessionClear => rfl
  | bus _ hi => rw [hi] at hneed; cases hneed
  | stream _ _ _ hi => rcases hi with ⟨rfl, -⟩ | ⟨rfl, -⟩ <;> cases hneed

/-- A command with a byte count writes no byte outside its destination range, whatever its outcome. -/
theorem CommandEffect.memRead_outside {i : Instr} {s t : State} (h : CommandEffect i s t) {need a : Nat}
    (hneed : streamNeed i = some need) (ha : ¬ InRange s.dstAddr.toNat need a) :
    memRead t.mem a = memRead s.mem a := by
  cases h with
  | error | nop | sessionInit | setNonce | keystream | sessionClear => rfl
  | bus _ hi =>
    cases hi.symm.trans hneed
    exact memScramble_other _ _ _ _ _ ha
  | stream _ _ _ hi _ _ hother =>
    rcases hi with ⟨rfl, rfl⟩ | ⟨rfl, -⟩ <;> cases hneed <;> exact hother a ha

/-- Settles O57: among a command's effects only a transfer and E_BUS touch memory, both in the destination range. -/
theorem commandsWriteOnlyTheirDestination : Obligations.CommandsWriteOnlyTheirDestination :=
  fun _ _ _ h => ⟨(exec_next_effect h).mem_of_streamNeed_eq_none,
    fun _ hneed _ ha => (exec_next_effect h).memRead_outside hneed ha⟩

end Sys2Proof.Machine
end

section
/-! PROOFS. PROCESS_BLOCKS and PROCESS_BYTES, treated as one: when a transfer succeeds, the whole next state it answers
(41_commands R146, R147, R152), and the properties the spec derives from that (R153, R155-R157). -/

namespace Sys2Proof.Machine

/-! ### The two commands as transfers -/

/-- The command `i` transfers `need` bytes and takes `blocks` counter values (41_commands R146, R147, R150). -/
inductive IsTransfer : Instr → Nat → Nat → Prop
  | blocks (n : Nat) : IsTransfer (.processBlocks n) (64 * n) n
  | bytes (length : Nat) (h : length ≤ 64) : IsTransfer (.processBytes length) length 1

/-- `t` is the state after a successful transfer of `need` bytes and `blocks` counter values started in `s`. -/
structure Transferred (need blocks : Nat) (s t : State) : Prop where
  /-- Only memory, the counter and the completion's own elements change. -/
  next : t = complete .none (setCounter (counter s + blocks) { s with mem := t.mem })
  /-- An empty transfer does not touch memory, canonical or not. -/
  empty : need = 0 → t.mem = s.mem
  canonical : MemoryCanonical s → MemoryCanonical t
  streamed : MemoryCanonical s → StreamedInto need s t.mem

section Ready
variable {need blocks : Nat} {s : State} (hready : Transferable need blocks s)
include hready

theorem Transferable.dst_le : s.dstAddr.toNat + need ≤ memLimit := by
  obtain ⟨-, -, -, hrange, -, -⟩ := hready
  have hlt := s.dstAddr.isLt
  simp only [memLimit]
  omega

/-- In place or disjoint, as numbers; an empty range is disjoint from any other. -/
theorem Transferable.buffers :
    s.srcAddr.toNat = s.dstAddr.toNat ∨ s.srcAddr.toNat + need ≤ s.dstAddr.toNat
      ∨ s.dstAddr.toNat + need ≤ s.srcAddr.toNat := by
  obtain ⟨-, -, -, -, hbuffers, -⟩ := hready
  rw [← BitVec.toNat_inj] at hbuffers
  omega

theorem Transferable.counter_le : counter s + blocks ≤ 2 ^ 64 := hready.2.2.2.2.2

end Ready

/-! ### The loops as transfers -/

/-- The block loop from the state's own counter and addresses, completed, is a transfer. -/
theorem transferred_of_xorBlocks {n : Nat} {s u : State} (hready : Transferable (64 * n) n s)
    (h : xorBlocks n (counter s) s.srcAddr.toNat s.dstAddr.toNat s = some u) :
    Transferred (64 * n) n s (complete .none (setCounter (counter s + n) u)) where
  next := by
    have hframe := xorBlocks_frame _ _ _ _ _ _ h
    rw [hframe]
    rfl
  empty hneed := by
    obtain rfl : n = 0 := by omega
    cases h
    rfl
  canonical hwf := xorBlocks_wf _ _ _ _ _ u hready.dst_le hwf h
  streamed hwf :=
    ⟨fun p hp => xorBlocks_inside _ _ _ _ _ _ hwf hready.dst_le hready.buffers h p hp,
      fun a ha => xorBlocks_other _ _ _ _ _ u a ha h⟩

theorem length_take_block {length : Nat} (hlen : length ≤ 64) (k : Vector Byte 64) :
    (k.toList.take length).length = length := by
  simp [hlen]

/-- The byte loop over the first bytes of one block, completed, is a transfer. -/
theorem transferred_of_xorBytes {length : Nat} {s u : State} (hlen : length ≤ 64)
    (hready : Transferable length 1 s)
    (h : xorBytes ((block s.skey s.snonce (indexOfCounter (counter s))).toList.take length) s.srcAddr.toNat
      s.dstAddr.toNat (runBlock (indexOfCounter (counter s)) s) = some u) :
    Transferred length 1 s (complete .none (setCounter (counter s + 1) u)) := by
  have hbytes := length_take_block hlen (block s.skey s.snonce (indexOfCounter (counter s)))
  refine ⟨?next, ?empty, fun hwf => ?canonical, fun hwf => ⟨fun p hp => ?inside, fun a ha => ?outside⟩⟩
  case next =>
    have hframe := xorBytes_frame _ _ _ _ _ h
    rw [hframe]
    rfl
  case empty =>
    rintro rfl
    cases h
    rfl
  case canonical =>
    exact xorBytes_wf _ _ _ (runBlock (indexOfCounter (counter s)) s) u (hbytes.symm ▸ hready.dst_le) hwf h
  case inside =>
    have hblock : p / 64 = 0 := by omega
    have hbyte : p % 64 = p := by omega
    have hinside := xorBytes_inside _ _ _ (runBlock (indexOfCounter (counter s)) s) u hwf
      (hbytes.symm ▸ hready.dst_le) (hbytes.symm ▸ hready.buffers) h p (hbytes.symm ▸ hp)
    simpa [streamByte, hblock, hbyte] using hinside
  case outside =>
    exact xorBytes_other _ _ _ (runBlock (indexOfCounter (counter s)) s) u a (hbytes.symm ▸ ha) h

/-! ### When a transfer succeeds, and what it answers -/

theorem exec_processBlocks_success {n : Nat} {s t : State} (h : exec (.processBlocks n) s = .next t)
    (herr : t.err = .none) :
    Transferable (64 * n) n s ∧ AllAdmitted (64 * n) s ∧ Transferred (64 * n) n s t := by
  rcases execProcessBlocks_cases n s with
    ⟨-, hx⟩ | ⟨e, -, hcheck, hx⟩ | ⟨-, -, -, hx⟩ | ⟨u, hsess, hcheck, hloop, hx⟩ <;>
    cases h.symm.trans hx
  · cases herr
  · rcases streamCheck_some _ _ _ _ hcheck with rfl | rfl | rfl | rfl <;> cases herr
  · cases herr
  · have hready : Transferable (64 * n) n s := transferable_iff.2 ⟨hsess, hcheck⟩
    have hadm := (xorBlocks_isSome _ _ _ _ _).1 (Option.isSome_of_eq_some hloop)
    exact ⟨hready, hadm, transferred_of_xorBlocks hready hloop⟩

theorem exec_processBytes_success {length : Nat} {s t : State} (h : exec (.processBytes length) s = .next t)
    (herr : t.err = .none) :
    length ≤ 64 ∧ Transferable length 1 s ∧ AllAdmitted length s ∧ Transferred length 1 s t := by
  rcases execProcessBytes_cases length s with
    ⟨-, hx⟩ | ⟨-, -, hx⟩ | ⟨e, -, -, hcheck, hx⟩ | ⟨-, -, -, -, hx⟩ | ⟨u, hsess, hlen, hcheck, hloop, hx⟩ <;>
    cases h.symm.trans hx
  · cases herr
  · cases herr
  · rcases streamCheck_some _ _ _ _ hcheck with rfl | rfl | rfl | rfl <;> cases herr
  · cases herr
  · have hready : Transferable length 1 s := transferable_iff.2 ⟨hsess, hcheck⟩
    have hadm := (xorBytes_isSome _ _ _ _).1 (Option.isSome_of_eq_some hloop)
    rw [length_take_block hlen] at hadm
    exact ⟨hlen, hready, hadm, transferred_of_xorBytes hlen hready hloop⟩

/-- A command that succeeds as a transfer passed its checks, was admitted everywhere and transferred. -/
theorem IsTransfer.success {i : Instr} {need blocks : Nat} (hi : IsTransfer i need blocks) {s t : State}
    (h : exec i s = .next t) (herr : t.err = .none) :
    Transferable need blocks s ∧ AllAdmitted need s ∧ Transferred need blocks s t := by
  cases hi with
  | blocks n => exact exec_processBlocks_success h herr
  | bytes length => exact (exec_processBytes_success h herr).2

/-- Past its checks and with every access admitted, PROCESS_BLOCKS does not end with an error. -/
theorem exec_processBlocks_of_admitted {n : Nat} {s : State} (hready : Transferable (64 * n) n s)
    (hadm : AllAdmitted (64 * n) s) : ∃ t, exec (.processBlocks n) s = .next t ∧ t.err = .none := by
  obtain ⟨hsess, hcheck⟩ := transferable_iff.1 hready
  obtain ⟨u, hloop⟩ := Option.isSome_iff_exists.1 ((xorBlocks_isSome n (counter s) _ _ s).2 hadm)
  refine ⟨complete .none (setCounter (counter s + n) u), ?_, rfl⟩
  simp [exec, execProcessBlocks, finishStream, hsess, blockBytes, hcheck, hloop]

/-- Nor does PROCESS_BYTES. -/
theorem exec_processBytes_of_admitted {length : Nat} {s : State} (hlen : length ≤ 64)
    (hready : Transferable length 1 s) (hadm : AllAdmitted length s) :
    ∃ t, exec (.processBytes length) s = .next t ∧ t.err = .none := by
  obtain ⟨hsess, hcheck⟩ := transferable_iff.1 hready
  have hsome : (xorBytes ((block s.skey s.snonce (indexOfCounter (counter s))).toList.take length) s.srcAddr.toNat
      s.dstAddr.toNat (runBlock (indexOfCounter (counter s)) s)).isSome = true := by
    rw [xorBytes_isSome, length_take_block hlen]
    exact hadm
  obtain ⟨u, hloop⟩ := Option.isSome_iff_exists.1 hsome
  refine ⟨complete .none (setCounter (counter s + 1) u), ?_, rfl⟩
  simp [exec, execProcessBytes, finishStream, hsess, maxPartial, Nat.not_lt.2 hlen, hcheck, hloop]

theorem IsTransfer.exec_of_ready {i : Instr} {need blocks : Nat} (hi : IsTransfer i need blocks) {s : State}
    (hready : Transferable need blocks s) (hadm : AllAdmitted need s) :
    ∃ t, exec i s = .next t ∧ Transferred need blocks s t := by
  have hsuccess : ∃ t, exec i s = .next t ∧ t.err = .none := by
    cases hi with
    | blocks => exact exec_processBlocks_of_admitted hready hadm
    | bytes _ hlen => exact exec_processBytes_of_admitted hlen hready hadm
  obtain ⟨t, ht, herr⟩ := hsuccess
  exact ⟨t, ht, (hi.success ht herr).2.2⟩

/-- The whole next state of a transfer, its counter written as 10_state R25 has it. -/
theorem Transferred.next_eq {need blocks : Nat} {s t : State} (h : Transferred need blocks s t)
    (hle : counter s + blocks ≤ 2 ^ 64) :
    t = { s with mem := t.mem, exh := decide (counter s + blocks = 2 ^ 64), ctr := BitVec.ofNat 64 (counter s + blocks),
                 busy := false, done := true, err := .none, arrays := none } := by
  have hexh : decide (2 ^ 64 ≤ counter s + blocks) = decide (counter s + blocks = 2 ^ 64) :=
    decide_eq_decide.2 ⟨hle.antisymm, Eq.ge⟩
  rw [← hexh]
  exact h.next

theorem Transferred.counter_eq {need blocks : Nat} {s t : State} (h : Transferred need blocks s t)
    (hle : counter s + blocks ≤ 2 ^ 64) : counter t = counter s + blocks := by
  rw [h.next, counter_complete, counter_setCounter _ _ hle]

/-- Settles O14: both commands as transfers, with a transfer's whole next state. -/
theorem streamCommandsXorKeystream : Obligations.StreamCommandsXorKeystream := by
  intro s hwf
  have transfer {i : Instr} {need blocks : Nat} (hi : IsTransfer i need blocks) (hready : Transferable need blocks s)
      (hadm : AllAdmitted need s) :
      ∃ m, exec i s = .next
          { s with mem := m, exh := decide (counter s + blocks = 2 ^ 64), ctr := BitVec.ofNat 64 (counter s + blocks),
                   busy := false, done := true, err := .none, arrays := none }
        ∧ StreamedInto need s m := by
    obtain ⟨t, ht, htransfer⟩ := hi.exec_of_ready hready hadm
    exact ⟨t.mem, ht.trans (congrArg _ (htransfer.next_eq hready.counter_le)), htransfer.streamed hwf⟩
  exact ⟨fun n => transfer (.blocks n), fun length hlen => transfer (.bytes length hlen)⟩

/-! ### Empty transfers -/

/-- 41_commands R146, R147: an empty transfer needs a session and room for its counter values, no buffers. -/
theorem transferable_empty {blocks : Nat} {s : State} (hsess : s.sess = true) (hle : counter s + blocks ≤ 2 ^ 64) :
    Transferable 0 blocks s :=
  ⟨hsess, Nat.zero_le _, Nat.zero_le _, .inl rfl, .inr (.inl rfl), hle⟩

/-- Below 2^64 the counter is CTR alone. -/
theorem counter_lt_iff (s : State) : counter s < 2 ^ 64 ↔ s.exh = false := by
  have hlt := s.ctr.isLt
  rw [counter_eq]
  cases s.exh <;> simp [hlt]

/-- {EXH, CTR} written with the value it has. -/
@[simp] theorem setCounter_counter (s : State) : setCounter (counter s) s = s := by
  have hexh : decide (2 ^ 64 ≤ counter s) = s.exh := by
    rw [Bool.eq_iff_iff, decide_eq_true_iff, ← Nat.not_lt, counter_lt_iff, Bool.not_eq_false]
  have hctr : BitVec.ofNat 64 (counter s) = s.ctr := by
    have hvalue : counter s = (if s.exh = true then 2 ^ 64 else 0) + s.ctr.toNat := counter_eq s
    refine BitVec.eq_of_toNat_eq ?_
    have hlt := s.ctr.isLt
    rw [BitVec.toNat_ofNat, hvalue]
    split <;> omega
  rw [setCounter, hexh, hctr]

theorem exec_processBlocks_zero {s : State} (hsess : s.sess = true) (hle : counter s ≤ 2 ^ 64) :
    exec (.processBlocks 0) s = .next (complete .none s) := by
  obtain ⟨t, ht, htransfer⟩ := (IsTransfer.blocks 0).exec_of_ready (transferable_empty hsess hle) nofun
  rw [ht, htransfer.next, htransfer.empty rfl, Nat.add_zero, setCounter_counter]

/-- Below 2^64 the counter's next value is CTR's. -/
theorem ofNat_counter_succ {s : State} (h : counter s < 2 ^ 64) : BitVec.ofNat 64 (counter s + 1) = s.ctr + 1 := by
  have hcounter : counter s = s.ctr.toNat := by
    rw [counter_eq, (counter_lt_iff s).1 h]
    simp
  rw [hcounter, BitVec.ofNat_add, BitVec.ofNat_toNat, BitVec.setWidth_eq]
  rfl

/-- Settles O15: no byte moves, and the counter is written with the value it has, or with the next one. -/
theorem emptyTransfers : Obligations.EmptyTransfers := by
  refine ⟨fun s hsess hle => ⟨_, exec_processBlocks_zero hsess hle, rfl, rfl, rfl, rfl⟩, fun s hsess hlt => ?_⟩
  obtain ⟨t, ht, htransfer⟩ := (IsTransfer.bytes 0 (Nat.zero_le _)).exec_of_ready (transferable_empty hsess hlt) nofun
  have hnext := htransfer.next_eq hlt
  rw [htransfer.empty rfl, ofNat_counter_succ hlt] at hnext
  exact ⟨t, ht, htransfer.empty rfl, htransfer.counter_eq hlt, (congrArg State.err hnext :), hnext⟩

/-! ### The counter over two commands -/

/-- A successful command that transfers moves the counter by its blocks (41_commands R151). -/
theorem IsTransfer.counter_of_success {i : Instr} {need blocks : Nat} (hi : IsTransfer i need blocks) {s t : State}
    (h : exec i s = .next t) (herr : t.err = .none) : counter t = counter s + blocks := by
  obtain ⟨hready, -, htransfer⟩ := hi.success h herr
  exact htransfer.counter_eq hready.counter_le

/-- Settles O25: each success moves the counter by its own blocks, and a failed check changes nothing of it. -/
theorem counterAfterBlocksAndPartialBlock : Obligations.CounterAfterBlocksAndPartialBlock := by
  refine ⟨fun n length s t u v ht hterr hu hv hverr => ?_, fun i s t h hnone hbus => ?_⟩
  · have hlen : length ≤ 64 := (exec_processBytes_success hv hverr).1
    rw [(IsTransfer.bytes length hlen).counter_of_success hv hverr, hu,
      (IsTransfer.blocks n).counter_of_success ht hterr]
  · rw [(exec_next_effect h).eq_complete_of_failed hnone hbus, counter_complete]

/-! ### Decryption -/

/-- The keystream is a function of key, nonce, counter and position. -/
theorem streamByte_congr {s u : State} (hkey : u.skey = s.skey) (hnonce : u.snonce = s.snonce)
    (hcounter : counter u = counter s) (p : Nat) : streamByte u p = streamByte s p := by
  simp only [streamByte, hkey, hnonce, hcounter]

/-- The output of one transfer, processed by a second with the same keystream, is the input of the first: the keystream
bytes cancel (40_block_engine R112). -/
theorem streamedInto_twice {need : Nat} {s u : State} {m m' : Memory} (hkey : u.skey = s.skey)
    (hnonce : u.snonce = s.snonce) (hcounter : counter u = counter s) (hfirst : StreamedInto need s m)
    (hsecond : StreamedInto need u m')
    (hinput : ∀ p, p < need → memRead u.mem (u.srcAddr.toNat + p) = memRead m (s.dstAddr.toNat + p)) :
    ∀ p, p < need → memRead m' (u.dstAddr.toNat + p) = memRead s.mem (s.srcAddr.toNat + p) := by
  intro p hp
  rw [hsecond.1 p hp, hinput p hp, hfirst.1 p hp, streamByte_congr hkey hnonce hcounter, BitVec.xor_assoc,
    BitVec.xor_self, BitVec.xor_zero]

/-- Settles O26: two transfers with one keystream. -/
theorem decryptionUndoesEncryption : Obligations.DecryptionUndoesEncryption := by
  intro s t u v hs hu hkey hnonce hcounter
  have twice {i : Instr} {need blocks : Nat} (hi : IsTransfer i need blocks) (ht : exec i s = .next t)
      (hterr : t.err = .none)
      (hinput : ∀ p, p < need → memRead u.mem (u.srcAddr.toNat + p) = memRead t.mem (s.dstAddr.toNat + p))
      (hv : exec i u = .next v) (hverr : v.err = .none) :
      ∀ p, p < need → memRead v.mem (u.dstAddr.toNat + p) = memRead s.mem (s.srcAddr.toNat + p) := by
    obtain ⟨-, -, hfirst⟩ := hi.success ht hterr
    obtain ⟨-, -, hsecond⟩ := hi.success hv hverr
    exact streamedInto_twice hkey hnonce hcounter (hfirst.streamed hs) (hsecond.streamed hu) hinput
  refine ⟨fun n => twice (.blocks n), fun length ht hterr => ?_⟩
  exact twice (.bytes length (exec_processBytes_success ht hterr).1) ht hterr

/-! ### KEYSTREAM and the stream -/

/-- Byte `i` of block `j` of a transfer is byte `i` of that block's words (40_block_engine R121, 41_commands R152). -/
theorem streamByte_of_block (s : State) (j : Nat) {i : Nat} (hi : i < 64) :
    streamByte s (64 * j + i)
      = byteOf ((blockWords s.skey s.snonce (indexOfCounter (counter s + j)))[i / 4]'(by omega)) (i % 4) := by
  have hblock : (64 * j + i) / 64 = j := by omega
  have hbyte : (64 * j + i) % 64 = i := by omega
  simp only [streamByte, hblock, hbyte]
  exact getElem_serialize _ i hi

theorem ks_of_exec_keystream {r k : State} (hsess : r.sess = true) (h : exec .keystream r = .next k) :
    k.ks = blockWords r.skey r.snonce (blockIndex r) := by
  rw [exec_keystream_of_session hsess] at h
  cases h
  rfl

/-- Settles O28: the stream's byte and the register's byte are the same byte of one block. -/
theorem keystreamAgreesWithStream : Obligations.KeystreamAgreesWithStream := by
  intro s t r k j hwf hsess hkey hnonce hindex hk
  have hks : k.ks = blockWords s.skey s.snonce (indexOfCounter (counter s + j)) := by
    rw [ks_of_exec_keystream hsess hk, hkey, hnonce]
    exact congrArg _ hindex
  have stream {i : Instr} {need blocks : Nat} (hi : IsTransfer i need blocks) (ht : exec i s = .next t)
      (herr : t.err = .none) (b : Nat) (hb : b < 64) (hp : 64 * j + b < need) :
      memRead t.mem (s.dstAddr.toNat + (64 * j + b))
        = memRead s.mem (s.srcAddr.toNat + (64 * j + b)) ^^^ byteOf (k.ks[b / 4]'(by omega)) (b % 4) := by
    obtain ⟨-, -, htransfer⟩ := hi.success ht herr
    rw [(htransfer.streamed hwf).1 _ hp, streamByte_of_block s j hb]
    simp only [hks]
  refine ⟨fun n ht herr hj b hb => ?_, fun length ht herr hj b hlt hb => ?_⟩
  · have hbyte := stream (.blocks n) ht herr b hb (by omega)
    rwa [← Nat.add_assoc, ← Nat.add_assoc] at hbyte
  · subst hj
    have hlen : length ≤ 64 := (exec_processBytes_success ht herr).1
    have hbyte := stream (.bytes length hlen) ht herr b hb (by omega)
    rwa [Nat.mul_zero, Nat.zero_add] at hbyte

end Sys2Proof.Machine
end

section
/-! PROOFS. Chunking (41_commands R156): a transfer of whole blocks in two parts is the transfer at once. -/

namespace Sys2Proof.Machine

/-- A transfer of whole blocks in two parts: `r` is where the second part starts, `n` blocks after `s`, the addresses
advanced and the capacities reduced (41_commands R156). -/
structure Continues (n : Nat) (s r : State) : Prop where
  sess : r.sess = s.sess
  skey : r.skey = s.skey
  snonce : r.snonce = s.snonce
  platform : r.platform = s.platform
  counter_eq : counter r = counter s + n
  srcAddr : r.srcAddr.toNat = s.srcAddr.toNat + 64 * n
  dstAddr : r.dstAddr.toNat = s.dstAddr.toNat + 64 * n
  srcLen : r.srcLen.toNat = s.srcLen.toNat - 64 * n
  dstLen : r.dstLen.toNat = s.dstLen.toNat - 64 * n

/-! ### The parts of a transfer that may start -/

theorem Transferable.first {n1 n2 : Nat} {s : State} (h : Transferable (64 * (n1 + n2)) (n1 + n2) s) :
    Transferable (64 * n1) n1 s := by
  obtain ⟨hsess, hsrc, hdst, hrange, hbuffers, hcounter⟩ := h
  rw [← BitVec.toNat_inj] at hbuffers
  refine ⟨hsess, ?_, ?_, ?_, ?buffers, ?_⟩
  case buffers =>
    rw [← BitVec.toNat_inj]
    omega
  all_goals omega

theorem AllAdmitted.first {n1 n2 : Nat} {s : State} (h : AllAdmitted (64 * (n1 + n2)) s) : AllAdmitted (64 * n1) s :=
  fun p hp => h p (by omega)

section Second
variable {n1 n2 : Nat} {s r : State} (hr : Continues n1 s r)
include hr

theorem Continues.transferable (h : Transferable (64 * (n1 + n2)) (n1 + n2) s) : Transferable (64 * n2) n2 r := by
  obtain ⟨hsess, hsrc, hdst, hrange, hbuffers, hcounter⟩ := h
  rw [← BitVec.toNat_inj] at hbuffers
  rw [Transferable, ← BitVec.toNat_inj, hr.sess, hr.counter_eq, hr.srcAddr, hr.dstAddr, hr.srcLen, hr.dstLen]
  refine ⟨hsess, ?_, ?_, ?_, ?_, ?_⟩ <;> omega

theorem Continues.admits_eq (kind : AccessKind) (a : Nat) : admits r kind a = admits s kind a := by
  simp only [admits, hr.platform]

theorem Continues.allAdmitted (h : AllAdmitted (64 * (n1 + n2)) s) : AllAdmitted (64 * n2) r := by
  intro p hp
  rw [hr.admits_eq, hr.admits_eq, hr.srcAddr, hr.dstAddr, Nat.add_assoc, Nat.add_assoc]
  exact h (64 * n1 + p) (by omega)

/-- The second part's keystream is the first one's, `64 * n1` bytes on. -/
theorem Continues.streamByte_eq (p : Nat) : streamByte r p = streamByte s (64 * n1 + p) := by
  have hblock : counter s + n1 + p / 64 = counter s + (64 * n1 + p) / 64 := by omega
  have hbyte : p % 64 = (64 * n1 + p) % 64 := by omega
  simp only [streamByte, hr.skey, hr.snonce, hr.counter_eq, hblock, hbyte]

/-- The memory of the second part, read against the state where the first part started. -/
theorem Continues.streamedInto {m : Memory} (h : Transferable (64 * (n1 + n2)) (n1 + n2) s)
    (hfirst : StreamedInto (64 * n1) s r.mem) (hsecond : StreamedInto (64 * n2) r m) :
    StreamedInto (64 * (n1 + n2)) s m := by
  have hbuffers := h.buffers
  obtain ⟨hinside, houtside⟩ := hsecond
  rw [hr.dstAddr] at hinside houtside
  refine ⟨fun p hp => ?_, fun a ha => ?_⟩
  · rcases Nat.lt_or_ge p (64 * n1) with hlt | hge
    · rw [houtside (s.dstAddr.toNat + p) (by unfold InRange; omega)]
      exact hfirst.1 p hlt
    · obtain ⟨q, rfl⟩ := Nat.exists_eq_add_of_le hge
      have hsrc : memRead r.mem (r.srcAddr.toNat + q) = memRead s.mem (s.srcAddr.toNat + (64 * n1 + q)) := by
        rw [hr.srcAddr, Nat.add_assoc]
        exact hfirst.2 _ (by unfold InRange; omega)
      rw [← Nat.add_assoc, hinside q (by omega), hsrc, hr.streamByte_eq]
  · unfold InRange at ha
    rw [houtside a (by unfold InRange; omega)]
    exact hfirst.2 a (by unfold InRange; omega)

end Second

/-! ### Advancing the buffers -/

/-- The buffers moved on by `k` bytes, as the host does between the parts. -/
def advance (k : Nat) (s : State) : State :=
  { s with srcAddr := s.srcAddr + BitVec.ofNat 32 k, dstAddr := s.dstAddr + BitVec.ofNat 32 k,
           srcLen := s.srcLen - BitVec.ofNat 32 k, dstLen := s.dstLen - BitVec.ofNat 32 k }

theorem toNat_add_ofNat {w : Word} {k : Nat} (h : w.toNat + k < 2 ^ 32) :
    (w + BitVec.ofNat 32 k).toNat = w.toNat + k := by
  rw [BitVec.toNat_add, BitVec.toNat_ofNat, Nat.add_mod_mod, Nat.mod_eq_of_lt h]

theorem toNat_sub_ofNat {w : Word} {k : Nat} (h : k ≤ w.toNat) : (w - BitVec.ofNat 32 k).toNat = w.toNat - k := by
  have hk : (BitVec.ofNat 32 k).toNat = k := Nat.mod_eq_of_lt (h.trans_lt w.isLt)
  rw [BitVec.toNat_sub_of_le (BitVec.le_def.2 (hk.trans_le h)), hk]

/-- With blocks still to come, the host's new addresses stay inside the address space. -/
theorem Transferred.continues {n1 n2 : Nat} {s u : State} (hu : Transferred (64 * n1) n1 s u) (hpos : 0 < n2)
    (h : Transferable (64 * (n1 + n2)) (n1 + n2) s) : Continues n1 s (advance (64 * n1) u) := by
  have hcounter : counter u = counter s + n1 := hu.counter_eq h.first.counter_le
  have hsrcAddr : u.srcAddr.toNat = s.srcAddr.toNat := (congrArg (·.srcAddr.toNat) hu.next :)
  have hdstAddr : u.dstAddr.toNat = s.dstAddr.toNat := (congrArg (·.dstAddr.toNat) hu.next :)
  have hsrcLen : u.srcLen.toNat = s.srcLen.toNat := (congrArg (·.srcLen.toNat) hu.next :)
  have hdstLen : u.dstLen.toNat = s.dstLen.toNat := (congrArg (·.dstLen.toNat) hu.next :)
  obtain ⟨-, hsrc, hdst, hrange, -, -⟩ := h
  refine ⟨(congrArg State.sess hu.next :), (congrArg State.skey hu.next :), (congrArg State.snonce hu.next :),
    (congrArg State.platform hu.next :), hcounter, ?_, ?_, ?_, ?_⟩
  · rw [← hsrcAddr]
    exact toNat_add_ofNat (by omega)
  · rw [← hdstAddr]
    exact toNat_add_ofNat (by omega)
  · rw [← hsrcLen]
    exact toNat_sub_ofNat (by omega)
  · rw [← hdstLen]
    exact toNat_sub_ofNat (by omega)

/-- The memory of a transfer is determined by what it reads, in canonical form. -/
theorem streamedInto_unique {need : Nat} {s : State} {m m' : Memory} (h : StreamedInto need s m)
    (h' : StreamedInto need s m') (hm : memWf m = true) (hm' : memWf m' = true) : m = m' := by
  refine mem_ext m m' hm hm' fun a => ?_
  by_cases ha : InRange s.dstAddr.toNat need a
  · obtain ⟨p, rfl⟩ := Nat.exists_eq_add_of_le ha.1
    have hp : p < need := Nat.lt_of_add_lt_add_left ha.2
    rw [h.1 p hp, h'.1 p hp]
  · rw [h.2 a ha, h'.2 a ha]

/-! ### The two parts -/

/-- An empty second part completes and leaves what the first part left. -/
theorem exec_second_part_empty {n : Nat} {s u : State} (hu : Transferred (64 * n) n s u)
    (h : Transferable (64 * n) n s) :
    exec (.processBlocks 0) (advance (64 * n) u) = .next (complete .none (advance (64 * n) u)) := by
  have hsess : u.sess = s.sess := (congrArg State.sess hu.next :)
  exact exec_processBlocks_zero (hsess.trans h.1) ((hu.counter_eq h.counter_le).trans_le h.counter_le)

/-- The second part succeeds, with the memory and the counter of the whole transfer. -/
theorem exec_second_part {n1 n2 : Nat} {s t u : State} (hwf : MemoryCanonical s) (hpos : 0 < n2)
    (h : Transferable (64 * (n1 + n2)) (n1 + n2) s) (hadm : AllAdmitted (64 * (n1 + n2)) s)
    (ht : Transferred (64 * (n1 + n2)) (n1 + n2) s t) (hu : Transferred (64 * n1) n1 s u) :
    ∃ v, exec (.processBlocks n2) (advance (64 * n1) u) = .next v ∧ v.err = .none ∧ v.mem = t.mem
      ∧ counter v = counter t := by
  have hr := hu.continues hpos h
  have hready := hr.transferable h
  obtain ⟨v, hv, hsecond⟩ := (IsTransfer.blocks n2).exec_of_ready hready (hr.allAdmitted hadm)
  have hwf' : MemoryCanonical (advance (64 * n1) u) := hu.canonical hwf
  have hwhole := hr.streamedInto h (hu.streamed hwf) (hsecond.streamed hwf')
  refine ⟨v, hv, (congrArg State.err hsecond.next :), ?_, ?_⟩
  · exact streamedInto_unique hwhole (ht.streamed hwf) (hsecond.canonical hwf') (ht.canonical hwf)
  · rw [hsecond.counter_eq hready.counter_le, hr.counter_eq, ht.counter_eq h.counter_le, Nat.add_assoc]

/-- Settles O27: the first part is a transfer of its own, and the second, empty or not, ends as the whole does. -/
theorem chunkingDoesNotMatter : Obligations.ChunkingDoesNotMatter := by
  intro n1 n2 s t hwf hexec herr
  obtain ⟨hready, hadm, ht⟩ := exec_processBlocks_success hexec herr
  obtain ⟨u, hu, hfirst⟩ := (IsTransfer.blocks n1).exec_of_ready hready.first (AllAdmitted.first hadm)
  refine ⟨u, hu, (congrArg State.err hfirst.next :), ?_⟩
  rcases Nat.eq_zero_or_pos n2 with rfl | hpos
  · obtain rfl : u = t := by
      rw [Nat.add_zero, hu] at hexec
      cases hexec
      rfl
    exact ⟨_, exec_second_part_empty hfirst hready.first, rfl, rfl, rfl⟩
  · exact exec_second_part hwf hpos hready hadm ht hfirst

end Sys2Proof.Machine
end

section
/-! PROOFS. The host's accesses to data memory (20_memory R61, R75, R77), and that no host step depends on the key
(10_state R26, 60_exceptions R199). -/

namespace Sys2Proof.Machine

/-! ### The access rules -/

/-- Two ranges touch exactly where they share a byte (20_memory R77). -/
theorem rangesTouch_iff (a n base need : Nat) :
    rangesTouch a n base need = true ↔ ∃ b, InRange a n b ∧ InRange base need b := by
  simp only [rangesTouch, Bool.and_eq_true, decide_eq_true_iff, InRange]
  constructor
  · rintro ⟨⟨⟨hn, hneed⟩, hlo⟩, hhi⟩
    exact ⟨max a base, by omega⟩
  · rintro ⟨b, hb⟩
    omega

/-- While a PROCESS_* command is in flight an access races exactly where it shares a byte with one of its ranges. -/
theorem racesActive_iff {s : State} {need : Nat} (hactive : activeNeed s = some need) (a n : Nat) :
    racesActive a n s = true
      ↔ ∃ b, InRange a n b ∧ (InRange s.srcAddr.toNat need b ∨ InRange s.dstAddr.toNat need b) := by
  simp only [racesActive, hactive, Bool.or_eq_true, rangesTouch_iff, and_or_left, exists_or]

theorem racesActive_of_idle {s : State} (h : s.busy = false) (a n : Nat) : racesActive a n s = false := by
  simp [racesActive, activeNeed, h]

/-- The bytes that pass the host's check exist and are admitted. -/
theorem hostAdmitted_of_le {kind : AccessKind} {s : State} {a n : Nat} (hle : a + n ≤ memLimit)
    (hadm : ∀ p, p < n → admits s kind (a + p) = true) : hostAdmitted kind s a n = true :=
  (hostAdmitted_iff kind s n a).2 fun p hp => ⟨by omega, hadm p hp⟩

theorem hostAdmitted_of_unadmitted {kind : AccessKind} {s : State} {a n p : Nat} (hp : p < n)
    (h : memLimit ≤ a + p ∨ admits s kind (a + p) = false) : hostAdmitted kind s a n = false := by
  refine Bool.eq_false_iff.2 fun hall => ?_
  obtain ⟨hexists, hadm⟩ := (hostAdmitted_iff kind s n a).1 hall p hp
  rcases h with h | h
  · exact absurd hexists (Nat.not_lt.2 h)
  · simp [h] at hadm

section Accesses
variable {s t : State} {a : Nat} {bs : List Byte} {n : Nat}

theorem hostAct_memWrite_of_race (h : racesActive a bs.length s = true) :
    hostAct (.memWrite a bs) s = .fault .dataRace := by
  simp [hostAct, hostMemWrite, h]

theorem hostAct_memRead_of_race (h : racesActive a n s = true) : hostAct (.memRead a n) s = .fault .dataRace := by
  simp [hostAct, hostMemRead, h]

theorem hostAct_memWrite_of_unadmitted (hrace : racesActive a bs.length s = false)
    (hadm : hostAdmitted .write s a bs.length = false) :
    hostAct (.memWrite a bs) s = .fault .hostUnadmitted := by
  simp [hostAct, hostMemWrite, hrace, hadm]

theorem hostAct_memRead_of_unadmitted (hrace : racesActive a n s = false)
    (hadm : hostAdmitted .read s a n = false) : hostAct (.memRead a n) s = .fault .hostUnadmitted := by
  simp [hostAct, hostMemRead, hrace, hadm]

/-- A host write answers a next state exactly where it neither races nor fails the host's check. -/
theorem hostAct_memWrite_eq_next_iff :
    hostAct (.memWrite a bs) s = .next t
      ↔ racesActive a bs.length s = false ∧ hostAdmitted .write s a bs.length = true
        ∧ { s with mem := memWriteRange s.mem a bs } = t := by
  cases hrace : racesActive a bs.length s with
  | true => simp [hostAct_memWrite_of_race hrace]
  | false =>
    cases hadm : hostAdmitted .write s a bs.length with
    | false => simp [hostAct_memWrite_of_unadmitted hrace hadm]
    | true => simp [hostAct, hostMemWrite, hrace, hadm]

/-- So does a host read. -/
theorem hostAct_memRead_eq_next_iff :
    hostAct (.memRead a n) s = .next t
      ↔ racesActive a n s = false ∧ hostAdmitted .read s a n = true ∧ see (.mem a (memReadRange s.mem a n)) s = t := by
  cases hrace : racesActive a n s with
  | true => simp [hostAct_memRead_of_race hrace]
  | false =>
    cases hadm : hostAdmitted .read s a n with
    | false => simp [hostAct_memRead_of_unadmitted hrace hadm]
    | true => simp [hostAct, hostMemRead, hrace, hadm]

end Accesses

/-- Settles O46: an idle block has no race, so the byte that does not pass the host's check is the fault. -/
theorem unadmittedHostAccessFaults : Obligations.UnadmittedHostAccessFaults :=
  fun _ _ _ _ hbusy hp =>
    ⟨fun h => hostAct_memWrite_of_unadmitted (racesActive_of_idle hbusy _ _) (hostAdmitted_of_unadmitted hp h),
      fun h => hostAct_memRead_of_unadmitted (racesActive_of_idle hbusy _ _) (hostAdmitted_of_unadmitted hp h)⟩

/-! ### Races -/

theorem activeNeed_of_transfer {s : State} {i : Instr} {need : Nat} (hbusy : s.busy = true)
    (hpend : decode s.pend = .command i)
    (hi : (∃ n, i = .processBlocks n ∧ need = 64 * n) ∨ i = .processBytes need) : activeNeed s = some need := by
  rcases hi with ⟨n, rfl, rfl⟩ | rfl <;> simp [activeNeed, hbusy, hpend, streamNeed, blockBytes]

/-- Settles O44: an access races where it shares a byte with a range, and one that does not goes through. -/
theorem racingAccessIsDataRace : Obligations.RacingAccessIsDataRace := by
  intro s i need a bs hbusy hpend hi
  have hraces := racesActive_iff (activeNeed_of_transfer hbusy hpend hi) a bs.length
  refine ⟨fun hshared => ?_, fun hapart hle => ?_⟩
  · have hrace := hraces.2 hshared
    exact ⟨hostAct_memWrite_of_race hrace, hostAct_memRead_of_race hrace⟩
  · have hrace : racesActive a bs.length s = false := Bool.eq_false_iff.2 (mt hraces.1 hapart)
    refine ⟨fun hadm => ?_, fun hadm => ?_⟩
    · exact ⟨_, hostAct_memWrite_eq_next_iff.2 ⟨hrace, hostAdmitted_of_le hle hadm, rfl⟩, rfl,
        fun hwf p hp => memRead_memWriteRange_inside bs s.mem a hle hwf p hp,
        fun b hb => memWriteRange_other bs s.mem a b hb⟩
    · exact ⟨hostAct_memRead_eq_next_iff.2 ⟨hrace, hostAdmitted_of_le hle hadm, rfl⟩, length_memReadRange _ _ _,
        fun p hp => getElem_memReadRange _ _ _ p hp⟩

/-- The bytes written read back as one sequence (20_memory R75). -/
theorem memReadRange_memWriteRange {m : Memory} {a : Nat} {bs : List Byte} (hwf : memWf m = true)
    (hle : a + bs.length ≤ memLimit) : memReadRange (memWriteRange m a bs) a bs.length = bs := by
  refine List.ext_getElem? fun p => ?_
  rcases Nat.lt_or_ge p bs.length with hp | hp
  · rw [getElem_memReadRange _ _ _ _ hp, memRead_memWriteRange_inside bs m a hle hwf p hp, List.getElem?_eq_getElem hp]
  · rw [List.getElem?_eq_none hp, List.getElem?_eq_none (by simpa using hp)]

/-- Settles O45: an idle block has no race, so both accesses go through, and the second reads what the first stored. -/
theorem hostWritesAreReadBack : Obligations.HostWritesAreReadBack := by
  intro s a bs hwf hbusy hle hadm
  have hcheck : hostAdmitted .write s a bs.length = true := hostAdmitted_of_le hle fun p hp => (hadm p hp).1
  refine ⟨{ s with mem := memWriteRange s.mem a bs },
    hostAct_memWrite_eq_next_iff.2 ⟨racesActive_of_idle hbusy _ _, hcheck, rfl⟩, rfl,
    fun b hb => memWriteRange_other bs s.mem a b hb,
    hostAct_memRead_eq_next_iff.2 ⟨racesActive_of_idle hbusy _ _, ?_, ?_⟩⟩
  · exact hostAdmitted_of_le hle fun p hp => (hadm p hp).2
  · simp only [memReadRange_memWriteRange hwf hle, see]

/-! ### The key -/

/-- The same state with another staged key and another session key. -/
def withKeys (k k' : Vector Word 8) (s : State) : State := { s with key := k, skey := k' }

section Keys
variable (k k' : Vector Word 8) (s : State)

/-- KEY0-KEY7 read 0 and no offset shows SKEY, so no read depends on either. -/
theorem regRead_withKeys (off : Nat) : regRead off (withKeys k k' s) = regRead off s := by
  unfold regRead
  cases regAt off with
  | none => rfl
  | some r => cases r <;> rfl

theorem hostAdmitted_withKeys (kind : AccessKind) (a n : Nat) :
    hostAdmitted kind (withKeys k k' s) a n = hostAdmitted kind s a n := by
  induction n generalizing a with
  | zero => rfl
  | succ n ih => exact congrArg (_ && ·) (ih (a + 1))

end Keys

/-- No register write touches data memory or the listing. -/
theorem regWrite_mem_listing (off : Nat) (v : Word) (s : State) :
    (regWrite off v s).mem = s.mem ∧ (regWrite off v s).listing = s.listing := by
  have hframe := (regWrite_effect off v s).frame
  exact ⟨(congrArg State.mem hframe :), (congrArg State.listing hframe :)⟩

/-- A poll shows STATUS and leaves data memory alone. -/
theorem hostPoll_mem_listing (s : State) :
    (hostPoll s).mem = s.mem
      ∧ (hostPoll s).listing = s.listing ++ [.reg (regOffset .status) (regRead (regOffset .status) s)] := by
  unfold hostPoll
  dsimp only
  split <;> exact ⟨rfl, rfl⟩

/-- A host access answers alike whatever the keys are, in what the host sees and in data memory. -/
theorem hostAct_withKeys {a : HostAct} {s t : State} (h : hostAct a s = .next t) (k k' : Vector Word 8) :
    ∃ u, hostAct a (withKeys k k' s) = .next u ∧ u.listing = t.listing ∧ u.mem = t.mem := by
  cases a with
  | rd width off =>
    rw [hostAct_rd_eq] at h ⊢
    split at h
    next hwindow =>
      cases h
      exact ⟨_, if_pos hwindow, by rw [regRead_withKeys]; rfl, rfl⟩
    next => cases h
  | wr width off v =>
    rw [hostAct_wr_eq] at h ⊢
    split at h
    next hwindow =>
      cases h
      obtain ⟨hmem, hlisting⟩ := regWrite_mem_listing off v s
      obtain ⟨hmem', hlisting'⟩ := regWrite_mem_listing off v (withKeys k k' s)
      exact ⟨_, if_pos hwindow, hlisting'.trans hlisting.symm, hmem'.trans hmem.symm⟩
    next => cases h
  | poll =>
    cases h
    obtain ⟨hmem, hlisting⟩ := hostPoll_mem_listing s
    obtain ⟨hmem', hlisting'⟩ := hostPoll_mem_listing (withKeys k k' s)
    rw [regRead_withKeys] at hlisting'
    exact ⟨_, rfl, hlisting'.trans hlisting.symm, hmem'.trans hmem.symm⟩
  | memRead b n =>
    obtain ⟨hrace, hadm, rfl⟩ := hostAct_memRead_eq_next_iff.1 h
    exact ⟨_, hostAct_memRead_eq_next_iff.2 ⟨hrace, (hostAdmitted_withKeys k k' s _ b n).trans hadm, rfl⟩, rfl, rfl⟩
  | memWrite b bs =>
    obtain ⟨hrace, hadm, rfl⟩ := hostAct_memWrite_eq_next_iff.1 h
    exact ⟨_, hostAct_memWrite_eq_next_iff.2 ⟨hrace, (hostAdmitted_withKeys k k' s _ b _).trans hadm, rfl⟩, rfl, rfl⟩
  | reset =>
    cases h
    exact ⟨_, rfl, rfl, rfl⟩
  | check e =>
    cases h
    exact ⟨_, rfl, rfl, rfl⟩

/-- Settles O43: a step that is not the engine's is the host's next access, or none. -/
theorem hostStepsDoNotRevealTheKey : Obligations.HostStepsDoNotRevealTheKey := by
  intro s t k k' hdue h
  have hdue' : ¬ EngineDue (withKeys k k' s) := hdue
  change ∃ u, step (withKeys k k' s) = .next u ∧ _
  cases hhost : s.host with
  | nil =>
    cases h.symm.trans (step_of_no_host hdue hhost)
    exact ⟨_, step_of_no_host hdue' hhost, rfl, rfl⟩
  | cons a rest =>
    obtain ⟨u, hu, hsame⟩ := hostAct_withKeys ((step_of_host hdue hhost).symm.trans h) k k'
    exact ⟨u, (step_of_host hdue' hhost).trans hu, hsame⟩

end Sys2Proof.Machine
end

section
/-! PROOFS. The buffer checks (41_commands R150), bytes and words (00_scope R9, 20_memory R63) and STATUS
(10_state R34). -/

namespace Sys2Proof.Machine

/-! ### The buffer checks -/

theorem rangesDisjoint_eq_true_iff (a b need : Nat) :
    rangesDisjoint a b need = true ↔ need = 0 ∨ a + need ≤ b ∨ b + need ≤ a := by
  simp [rangesDisjoint, or_assoc]

theorem buffersOK_eq_true_iff (a b need : Nat) :
    buffersOK a b need = true ↔ a = b ∨ need = 0 ∨ a + need ≤ b ∨ b + need ≤ a := by
  rw [buffersOK, Bool.or_eq_true, decide_eq_true_iff, rangesDisjoint_eq_true_iff]

/-- Settles O29: each check is its condition, decided. -/
theorem bufferChecksAreExact : Obligations.BufferChecksAreExact :=
  fun a b need _ =>
    ⟨rangeOK_iff, rangesDisjoint_eq_true_iff a b need, buffersOK_eq_true_iff a b need, rfl, rfl⟩

/-! ### Bytes and words -/

theorem toNat_append_byte {n : Nat} (hi : BitVec n) (lo : Byte) : (hi ++ lo).toNat = 2 ^ 8 * hi.toNat + lo.toNat := by
  rw [BitVec.toNat_append, Nat.shiftLeft_eq, Nat.mul_comm, ← Nat.two_pow_add_eq_or_of_lt lo.isLt]

theorem toNat_wordOfBytes (b0 b1 b2 b3 : Byte) :
    (wordOfBytes b0 b1 b2 b3).toNat = b0.toNat + 2 ^ 8 * b1.toNat + 2 ^ 16 * b2.toNat + 2 ^ 24 * b3.toNat := by
  rw [wordOfBytes, toNat_append_byte, toNat_append_byte, toNat_append_byte]
  omega

/-- LE32 at a position that has four bytes. -/
theorem le32_of_le {b : List Byte} {i : Nat} (h : i + 4 ≤ b.length) :
    le32 b i = wordOfBytes b[i] b[i + 1] b[i + 2] b[i + 3] := by
  have hget (k : Nat) (hk : i + k < b.length) : b.getD (i + k) 0 = b[i + k] := List.getD_eq_getElem b 0 hk
  rw [le32, hget 1, hget 2, hget 3]
  exact congrArg (wordOfBytes · _ _ _) (hget 0 (by omega))

/-- A word is its four bytes, the first one lowest. -/
theorem le32_leBytes (w : Word) : le32 (leBytes w) 0 = w := by
  have hjoin {len : Nat} (k : Nat) : w.extractLsb' (k + 8) len ++ w.extractLsb' k 8 = w.extractLsb' k (len + 8) :=
    BitVec.extractLsb'_append_extractLsb'_eq_extractLsb' rfl
  calc le32 (leBytes w) 0
    _ = w.extractLsb' 24 8 ++ w.extractLsb' 16 8 ++ w.extractLsb' 8 8 ++ w.extractLsb' 0 8 := rfl
    _ = w.extractLsb' 0 32 := by rw [hjoin 16, hjoin 8, hjoin 0]
    _ = w := BitVec.extractLsb'_eq_self

/-- Settles O49: the bytes of a word are its digits in base 2^8, lowest first. -/
theorem wordsAreLittleEndian : Obligations.WordsAreLittleEndian := by
  refine ⟨toNat_wordOfBytes, fun b i h => ?_, fun w => ⟨le32_leBytes w, rfl⟩, by decide⟩
  rw [le32_of_le h, toNat_wordOfBytes]

/-! ### STATUS -/

/-- STATUS with its width written as the sum of its fields' widths, so that the laws of concatenation apply. -/
def statusFields (s : State) : BitVec (16 + 8 + 2 + 1 + 1 + 1 + 1 + 1 + 1) := statusWord s

theorem statusFields_eq (s : State) :
    statusFields s
      = (0 : BitVec 16) ++ errorValue s.err ++ (0 : BitVec 2) ++ BitVec.ofBool s.fault ++ BitVec.ofBool s.werr
        ++ BitVec.ofBool s.exh ++ BitVec.ofBool s.sess ++ BitVec.ofBool s.done ++ BitVec.ofBool s.busy := rfl

section LowFlag
variable {n : Nat} (x : BitVec n) (b : Bool)

theorem getLsbD_append_ofBool_zero : (x ++ BitVec.ofBool b).getLsbD 0 = b := by
  rw [BitVec.getLsbD_append, if_pos Nat.one_pos, BitVec.getLsbD_ofBool]
  exact Bool.true_and b

theorem getLsbD_append_ofBool_succ (i : Nat) : (x ++ BitVec.ofBool b).getLsbD (i + 1) = x.getLsbD i := by
  simp [BitVec.getLsbD_append]

theorem extractLsb'_append_ofBool_succ (i k : Nat) :
    (x ++ BitVec.ofBool b).extractLsb' (i + 1) k = x.extractLsb' i k :=
  BitVec.extractLsb'_append_eq_of_le (Nat.le_add_left 1 i)

end LowFlag

/-- STATUS bits 5:0 are the six flags. -/
theorem getLsbD_statusWord (s : State) :
    (statusWord s).getLsbD 0 = s.busy ∧ (statusWord s).getLsbD 1 = s.done ∧ (statusWord s).getLsbD 2 = s.sess
      ∧ (statusWord s).getLsbD 3 = s.exh ∧ (statusWord s).getLsbD 4 = s.werr ∧ (statusWord s).getLsbD 5 = s.fault := by
  have hword (i : Nat) : (statusWord s).getLsbD i = (statusFields s).getLsbD i := rfl
  simp only [hword, statusFields_eq, getLsbD_append_ofBool_zero, getLsbD_append_ofBool_succ, and_self]

/-- Above its six flags STATUS holds two zero bits, ERR and sixteen zero bits. -/
theorem extractLsb'_statusWord (s : State) (i k : Nat) :
    (statusWord s).extractLsb' (i + 6) k = ((0 : BitVec 16) ++ errorValue s.err ++ (0 : BitVec 2)).extractLsb' i k := by
  have hword : (statusWord s).extractLsb' (i + 6) k = (statusFields s).extractLsb' (i + 6) k := rfl
  simp only [hword, statusFields_eq, extractLsb'_append_ofBool_succ]

theorem extractLsb'_statusWord_reserved (s : State) : (statusWord s).extractLsb' 6 2 = 0 := by
  rw [extractLsb'_statusWord s 0 2, BitVec.extractLsb'_append_eq_of_add_le (by decide)]
  rfl

theorem extractLsb'_statusWord_err (s : State) : (statusWord s).extractLsb' 8 8 = errorValue s.err := by
  rw [extractLsb'_statusWord s 2 8, BitVec.extractLsb'_append_eq_of_le (by decide),
    BitVec.extractLsb'_append_eq_of_add_le (by decide)]
  exact BitVec.extractLsb'_eq_self

theorem extractLsb'_statusWord_high (s : State) : (statusWord s).extractLsb' 16 16 = 0 := by
  rw [extractLsb'_statusWord s 10 16, BitVec.extractLsb'_append_eq_of_le (by decide),
    BitVec.extractLsb'_append_eq_of_le (by decide)]
  rfl

theorem errorValue_le (e : ErrorCode) : errorValue e ≤ 9 := by
  cases e <;> decide

/-- Settles O39: STATUS taken apart field by field, the flags from the lowest bit up. -/
theorem statusBitsReadTheFlags : Obligations.StatusBitsReadTheFlags := by
  refine ⟨fun s => ?_, rfl, rfl, rfl, rfl, rfl, rfl, rfl, rfl, rfl, rfl⟩
  obtain ⟨hbusy, hdone, hsess, hexh, hwerr, hfault⟩ := getLsbD_statusWord s
  exact ⟨hbusy, hdone, hsess, hexh, hwerr, hfault, extractLsb'_statusWord_reserved s, extractLsb'_statusWord_err s,
    extractLsb'_statusWord_high s, errorValue_le s.err⟩

end Sys2Proof.Machine
end

section
/-! PROOFS. The Block Engine's input state and rounds (40_block_engine R113-R119). -/

namespace Sys2Proof.Machine

/-- Settles O31: the layout is Build's own; the example is evaluated. -/
theorem inputStateLayout : Obligations.InputStateLayout :=
  ⟨fun _ _ _ => rfl, by decide⟩

/-! ### The quarter-round -/

/-- The quarter-round of four words held as one value. -/
def mixFour (y : Word × Word × Word × Word) : Word × Word × Word × Word := quarterRound y.1 y.2.1 y.2.2.1 y.2.2.2

/-- The quarter-round undone, the word it wrote last first (40_block_engine R115). -/
def unmixFour (z : Word × Word × Word × Word) : Word × Word × Word × Word :=
  let (z0, z1, z2, z3) := z
  let y0 := z0 ^^^ rotl (add32 z3 z2) 18
  let y3 := z3 ^^^ rotl (add32 z2 z1) 13
  let y2 := z2 ^^^ rotl (add32 z1 y0) 9
  let y1 := z1 ^^^ rotl (add32 y0 y3) 7
  (y0, y1, y2, y3)

theorem xor_xor_cancel_right (a b : Word) : a ^^^ b ^^^ b = a := by
  rw [BitVec.xor_assoc, BitVec.xor_self, BitVec.xor_zero]

theorem leftInverse_unmixFour : Function.LeftInverse unmixFour mixFour := fun _ => by
  simp only [mixFour, unmixFour, quarterRound, xor_xor_cancel_right]

theorem rightInverse_unmixFour : Function.RightInverse unmixFour mixFour := fun _ => by
  simp only [mixFour, unmixFour, quarterRound, xor_xor_cancel_right]

/-- Settles O32: each word of the quarter-round is an exclusive OR with a value that the inverse knows by then. -/
theorem quarterRoundIsBijective : Obligations.QuarterRoundIsBijective :=
  ⟨⟨leftInverse_unmixFour.injective, rightInverse_unmixFour.surjective⟩, by decide, by decide⟩

/-! ### The rounds -/

/-- The words at four places, in the order a quarter-round takes them. -/
def wordsAt (a b c d : Fin 16) (x : Words16) : Word × Word × Word × Word := (x[a], x[b], x[c], x[d])

theorem getElem_quarterAt_of_notMem {a b c d i : Fin 16} (h : i ∉ [a, b, c, d]) (x : Words16) :
    (quarterAt a b c d x)[i] = x[i] := by
  simp only [List.mem_cons, List.not_mem_nil, or_false, not_or, Fin.ext_iff] at h
  obtain ⟨ha, hb, hc, hd⟩ := h
  simp [quarterAt, Vector.getElem_set_ne, Ne.symm ha, Ne.symm hb, Ne.symm hc, Ne.symm hd]

/-- At four different places the quarter-round writes the mix of the words there. -/
theorem wordsAt_quarterAt {a b c d : Fin 16} (h : [a, b, c, d].Nodup) (x : Words16) :
    wordsAt a b c d (quarterAt a b c d x) = mixFour (wordsAt a b c d x) := by
  simp only [List.nodup_cons, List.mem_cons, List.not_mem_nil, or_false, not_or, Fin.ext_iff] at h
  obtain ⟨⟨hab, hac, had⟩, ⟨hbc, hbd⟩, hcd, -⟩ := h
  simp [wordsAt, mixFour, quarterAt, Ne.symm hab, Ne.symm hac, Ne.symm had, Ne.symm hbc, Ne.symm hbd, Ne.symm hcd]

theorem wordsAt_quarterAt_of_disjoint {a b c d e f g h : Fin 16} (hne : ∀ i ∈ [e, f, g, h], i ∉ [a, b, c, d])
    (x : Words16) : wordsAt e f g h (quarterAt a b c d x) = wordsAt e f g h x := by
  simp only [wordsAt, getElem_quarterAt_of_notMem (hne e (by simp)), getElem_quarterAt_of_notMem (hne f (by simp)),
    getElem_quarterAt_of_notMem (hne g (by simp)), getElem_quarterAt_of_notMem (hne h (by simp))]

/-- 40_block_engine R116: the columns are four disjoint groups, so each is mixed from the words before the round. -/
theorem wordsAt_columnRound (x : Words16) :
    wordsAt 0 4 8 12 (columnRound x) = mixFour (wordsAt 0 4 8 12 x)
      ∧ wordsAt 5 9 13 1 (columnRound x) = mixFour (wordsAt 5 9 13 1 x)
      ∧ wordsAt 10 14 2 6 (columnRound x) = mixFour (wordsAt 10 14 2 6 x)
      ∧ wordsAt 15 3 7 11 (columnRound x) = mixFour (wordsAt 15 3 7 11 x) := by
  simp (disch := decide) only [columnRound, wordsAt_quarterAt, wordsAt_quarterAt_of_disjoint, and_self]

/-- 40_block_engine R117: so are the rows. -/
theorem wordsAt_rowRound (x : Words16) :
    wordsAt 0 1 2 3 (rowRound x) = mixFour (wordsAt 0 1 2 3 x)
      ∧ wordsAt 5 6 7 4 (rowRound x) = mixFour (wordsAt 5 6 7 4 x)
      ∧ wordsAt 10 11 8 9 (rowRound x) = mixFour (wordsAt 10 11 8 9 x)
      ∧ wordsAt 15 12 13 14 (rowRound x) = mixFour (wordsAt 15 12 13 14 x) := by
  simp (disch := decide) only [rowRound, wordsAt_quarterAt, wordsAt_quarterAt_of_disjoint, and_self]

/-- Settles O33: the groups of a round do not share a place. -/
theorem roundsMixColumnsAndRows : Obligations.RoundsMixColumnsAndRows :=
  fun x => ⟨wordsAt_columnRound x, wordsAt_rowRound x⟩

/-- From an odd round on, two rounds are one double round (40_block_engine R118, R119). -/
theorem mixRounds_eq_iterate (k : Nat) {r : Nat} (hr : r % 2 = 1) (s : Words16) :
    mixRounds r (2 * k) s = doubleRound^[k] s := by
  induction k generalizing r s with
  | zero => rfl
  | succ k ih =>
    have hnext : (r + 1) % 2 ≠ 1 := by omega
    have hround : mixRounds r (2 * (k + 1)) s = mixRounds (r + 2) (2 * k) (doubleRound s) := by
      simp [Nat.mul_succ, mixRounds, mixRound, hr, hnext, doubleRound]
    rw [hround, ih (by omega), Function.iterate_succ_apply]

theorem mix20_eq_iterate (s : Words16) : mix20 s = doubleRound^[10] s := mixRounds_eq_iterate 10 rfl s

theorem doubleRound_zero : doubleRound (Vector.replicate 16 0) = Vector.replicate 16 0 := by decide

/-- Settles O34: the twenty rounds in pairs; the zero state is a fixed point of each pair; the example is evaluated. -/
theorem twentyRoundsAreTenDoubleRounds : Obligations.TwentyRoundsAreTenDoubleRounds := by
  refine ⟨mix20_eq_iterate, ?_, by decide +kernel⟩
  rw [mix20_eq_iterate, Function.iterate_fixed doubleRound_zero]

end Sys2Proof.Machine
end
